-- ==== Sys2Proof/Word.lean ====
section
/-! DEFINITION. The three widths the engine moves (20_memory R58): 8, 16 and 32 bits, all unsigned
(00_scope section 6: "There are no signed values anywhere in this hardware"). -/

namespace Sys2Proof

/-- An 8-bit value: a byte of BUF, a command, MTYPE, MCODE, STATUS. -/
abbrev Byte := BitVec 8

/-- A 16-bit value: LEN, RESULT, MCSUM, MIDENT, MSEQ, a word of the checksum. -/
abbrev Half := BitVec 16

/-- A 32-bit value: MPAYLOAD. -/
abbrev Quad := BitVec 32

end Sys2Proof
end

