-- ==== Sys2Proof/Config.lean ====
section
/-! DEFINITION. What an implementation fixes (00_scope R5, R6) and the values the spec leaves free
(70_reset R162, 60_exceptions R147). -/

namespace Sys2Proof

/-- The parameters of the step relation (10_state R38). `State` carries one `Config`, which no step
changes, so that a statement over all states covers every value of the parameters
(DESIGN CHOICE, log entry 1, safe). -/
structure Config where
  /-- `BUF_BYTES`, the size of BUF in bytes (00_scope R5). -/
  bufBytes : Nat
  /-- `HAS_SERDES`: the serializer/deserializer unit is present (00_scope R6). -/
  hasSerdes : Bool
  deriving DecidableEq, Repr

/-- The two bounds R5 puts on `BUF_BYTES`. -/
abbrev Config.wf (c : Config) : Prop := 12 ≤ c.bufBytes ∧ c.bufBytes ≤ 65535

/-- The values the spec takes where it needs one (00_scope R5, R6). -/
def Config.default : Config := { bufBytes := 1024, hasSerdes := true }

/-- FREE VALUE (70_reset R162, log entry 4). The byte that BUF holds at `offset`, fixed by the reset
number `resets`, until something writes it: "a draw fixed at reset time", "possibly different at every
reset and at every byte". -/
opaque Config.bufDraw (resets offset : Nat) : Byte

/-- FREE VALUE (60_exceptions R147, log entry 5). The `n`-th unspecified value returned by a read of
width `w` that raises BadAccess: "any value of the width of the access, a fresh draw each time". -/
opaque Config.readDraw (w n : Nat) : BitVec w

end Sys2Proof
end

