-- ==== Sys2Proof/Syntax.lean ====
section
/-! DEFINITION. The commands of the engine: the rows of spec/opcode_table.json (30_encoding R71). -/

namespace Sys2Proof

/-- A command. No command has an explicit operand or an immediate (30_encoding R72): each operand is
implicit and fixed by the opcode (R73). -/
inductive Instr where
  /-- 0x01, 40_checksum R98. -/
  | compute
  /-- 0x02, 40_checksum R99. -/
  | validate
  /-- 0x03, 41_serdes R125. -/
  | encode
  /-- 0x04, 41_serdes R126. -/
  | decode
  deriving DecidableEq, Repr

end Sys2Proof
end

