-- ==== Sys2Proof/WellFormed.lean ====
section
/-! DEFINITION. Which commands exist under the parameters (00_scope R6, 30_encoding R75). -/

namespace Sys2Proof

/-- The command needs the optional serializer/deserializer unit (00_scope R6: "only COMPUTE remains"
without it). -/
def Instr.needsSerdes : Instr → Bool
  | .compute => false
  | .validate => true
  | .encode => true
  | .decode => true

/-- The command exists on an engine with the parameters `c` (30_encoding R75). -/
def Instr.wellFormed (c : Config) (i : Instr) : Bool := !i.needsSerdes || c.hasSerdes

end Sys2Proof
end

