-- ==== Sys2Proof/Decode.lean ====
section
/-! DEFINITION. Decoding of a command byte, total and rejecting by name, and the encoder
(30_encoding R70 to R76). -/

namespace Sys2Proof

/-- Why a byte names no command. -/
inductive DecodeReject where
  /-- No byte was delivered. -/
  | noByte
  /-- 0x00 or 0x05 to 0xFF (30_encoding R74). -/
  | reservedOpcode
  /-- 0x02, 0x03 or 0x04 on an engine without the serializer/deserializer unit (30_encoding R75). -/
  | serdesAbsent
  deriving DecidableEq, Repr

/-- The opcode map (30_encoding R71): all 8 bits are the opcode (R70, mask 0xFF). -/
def opcodeMap (op : Byte) : Option Instr :=
  if op = 0x01#8 then some .compute
  else if op = 0x02#8 then some .validate
  else if op = 0x03#8 then some .encode
  else if op = 0x04#8 then some .decode
  else none

/-- Decode a command byte on an engine with the parameters `c` (30_encoding R71, R74, R75). -/
def decode (c : Config) (op : Byte) : Except DecodeReject Instr :=
  match opcodeMap op with
  | none => .error .reservedOpcode
  | some i => if i.wellFormed c then .ok i else .error .serdesAbsent

/-- Decode the first command of a byte list: a command is always 8 bits (30_encoding R76). -/
def decodeBytes (c : Config) : List Byte → Except DecodeReject (Instr × List Byte)
  | [] => .error .noByte
  | op :: rest =>
    match decode c op with
    | .ok i => .ok (i, rest)
    | .error e => .error e

/-- The command byte (30_encoding R71; match column of spec/opcode_table.json). -/
def encode : Instr → Byte
  | .compute => 0x01#8
  | .validate => 0x02#8
  | .encode => 0x03#8
  | .decode => 0x04#8

/-- The bytes of a word of `nbits` bits, least significant byte first, at least one byte (a table row
shorter than a command would be filled up with zero bits). -/
def wordBytes (nbits w : Nat) : List Byte :=
  (List.range (max 1 ((nbits + 7) / 8))).map fun k => BitVec.ofNat 8 ((w % 2 ^ nbits) >>> (8 * k))

/-- The command a table word stands for, under the parameters the spec takes. A word of more than one
byte is no command (30_encoding R76; log entry 11). -/
def decodeTableWord (nbits w : Nat) : Option Instr :=
  match decodeBytes Config.default (wordBytes nbits w) with
  | .ok (i, []) => some i
  | _ => none

end Sys2Proof
end

