-- ==== Sys2Proof/Machine/Transaction.lean ====
section
/-! DEFINITION. The register space (10_state R21) and what the host does to the engine: the four
transactions (20_memory R51 to R54), the reset event (70_reset R160) and the responses (00_scope R8). -/

namespace Sys2Proof.Machine

/-- The 16 register numbers (10_state R21): ten assigned, six unassigned (0xA to 0xF). -/
inductive Reg where
  | cmd | status | len | result | mtype | mcode | mcsum | mident | mseq | mpayload
  /-- 0xA + `k`. -/
  | unassigned (k : Fin 6)
  deriving DecidableEq, Repr

/-- The register's 4-bit number (10_state R21). -/
def Reg.number : Reg → BitVec 4
  | .cmd => 0x0#4
  | .status => 0x1#4
  | .len => 0x2#4
  | .result => 0x3#4
  | .mtype => 0x4#4
  | .mcode => 0x5#4
  | .mcsum => 0x6#4
  | .mident => 0x7#4
  | .mseq => 0x8#4
  | .mpayload => 0x9#4
  | .unassigned k => BitVec.ofNat 4 (10 + k.val)

/-- The register a 4-bit number names (10_state R21); the inverse of `Reg.number`. -/
def Reg.ofNumber (n : BitVec 4) : Reg :=
  if n = 0x0#4 then .cmd
  else if n = 0x1#4 then .status
  else if n = 0x2#4 then .len
  else if n = 0x3#4 then .result
  else if n = 0x4#4 then .mtype
  else if n = 0x5#4 then .mcode
  else if n = 0x6#4 then .mcsum
  else if n = 0x7#4 then .mident
  else if n = 0x8#4 then .mseq
  else if n = 0x9#4 then .mpayload
  else if n = 0xA#4 then .unassigned 0
  else if n = 0xB#4 then .unassigned 1
  else if n = 0xC#4 then .unassigned 2
  else if n = 0xD#4 then .unassigned 3
  else if n = 0xE#4 then .unassigned 4
  else .unassigned 5

/-- The register's width in bits (10_state R21). An unassigned number has no width (60_exceptions R147):
0 here, so that a value of that width carries nothing. -/
@[reducible] def Reg.width : Reg → Nat
  | .cmd => 8
  | .status => 8
  | .len => 16
  | .result => 16
  | .mtype => 8
  | .mcode => 8
  | .mcsum => 16
  | .mident => 16
  | .mseq => 16
  | .mpayload => 32
  | .unassigned _ => 0

/-- Host access rights (10_state R21). -/
inductive Access where
  | readWrite
  | readOnly
  | writeOnly
  /-- An unassigned number. -/
  | none
  deriving DecidableEq, Repr

/-- The "host access" column of 10_state R21. -/
def Reg.access : Reg → Access
  | .cmd => .writeOnly
  | .status => .readOnly
  | .len => .readWrite
  | .result => .readOnly
  | .mtype => .readWrite
  | .mcode => .readWrite
  | .mcsum => .readWrite
  | .mident => .readWrite
  | .mseq => .readWrite
  | .mpayload => .readWrite
  | .unassigned _ => .none

/-- The register belongs to the optional unit: numbers 0x4 to 0x9 (00_scope R6, 10_state R20). -/
def Reg.isMessage : Reg → Bool
  | .mtype | .mcode | .mcsum | .mident | .mseq | .mpayload => true
  | .cmd | .status | .len | .result | .unassigned _ => false

/-- One host transaction (20_memory R51 to R54). A register write carries a value of exactly the
register's width (10_state R21, 92 D29), so no ill-sized write can be written down (log entry 10). -/
inductive Transaction where
  | regRead (r : Reg)
  | regWrite (r : Reg) (v : BitVec r.width)
  | bufRead (a : Nat)
  | bufWrite (a : Nat) (b : Byte)
  deriving DecidableEq, Repr

/-- What reaches the engine from outside: a transaction, or the platform's reset input between two
transactions (70_reset R160: "reset is one more event kind in the input sequence"). -/
inductive Event where
  | transaction (t : Transaction)
  | reset
  deriving DecidableEq, Repr

/-- What the engine answers to a transaction (00_scope R8). -/
inductive Response where
  /-- The transaction returns no data: every write, a command included. -/
  | done
  /-- The data of a read, of the width of the access. -/
  | value (w : Nat) (v : BitVec w)
  /-- A read of an unassigned register number: "the model returns no value at all (the response is
  "faulted")" (60_exceptions R147). -/
  | noValue
  deriving DecidableEq, Repr

end Sys2Proof.Machine
end

