-- ==== Sys2Proof/Machine/State.lean ====
section
/-! DEFINITION. The state of the engine (10_state R20), the reasons a step of the model can stop, and the
state after reset (10_state R37). -/

namespace Sys2Proof.Machine

/-- The four faults of the hardware (60_exceptions R140). Raising one is a NEXT state of the model with
`STATUS.ERR` set (R141), never a stop of the model. -/
inductive EngineFault where
  | illegalCommand
  | lenRange
  | shortMessage
  | badAccess
  deriving DecidableEq, Repr

/-- Why the MODEL stops. -/
inductive Fault where
  /-- `MemRead` or `MemWrite` outside BUF, which 00_scope section 6 leaves undefined ("Both are defined
  only for `addr + n <= BUF_BYTES`"). Raised by DECODE and ENCODE in a state whose parameter BUF_BYTES is
  below 12, which 00_scope R5 excludes; no other state raises it. Safe (log entry 7). -/
  | outsideBuffer
  deriving DecidableEq, Repr

/-- Why the model has no meaning for an instruction. -/
inductive Refusal where
  /-- A command whose arm of `exec` is not written yet. No arm raises it: every command has its
  meaning. Safe. -/
  | notModelled (mnemonic : String)
  deriving DecidableEq, Repr

/-- Bytes by offset, in canonical form: offsets strictly rising. An unlisted offset holds no written
byte, so no entry can equal it. -/
abbrev Memory := List Host.Cell

/-- The canonical form. -/
abbrev Memory.wf (m : Memory) : Prop := m.Pairwise fun x y => x.1 < y.1

/-- The state. `config` holds the parameters (10_state R38); `len` to `buf` are the state of the engine,
"exactly the following, and nothing else" (10_state R20); `pending`, `response`, `resets` and `draws` are
the model's own. -/
structure State where
  /-- The parameters BUF_BYTES and HAS_SERDES; no step changes them (log entry 1). -/
  config : Config
  /-- LEN (R26). -/
  len : Half
  /-- RESULT (R27). -/
  result : Half
  /-- STATUS.VALID (R24). -/
  valid : Bool
  /-- STATUS.ERR (R25): `none` is code 0. Codes 5 to 15 "never occur" (R23), so they cannot be held
  (log entry 9). -/
  err : Option EngineFault
  /-- MTYPE (R28). -/
  mtype : Byte
  /-- MCODE (R29). -/
  mcode : Byte
  /-- MCSUM (R30). -/
  mcsum : Half
  /-- MIDENT (R31). -/
  mident : Half
  /-- MSEQ (R32). -/
  mseq : Half
  /-- MPAYLOAD (R33). -/
  mpayload : Quad
  /-- The bytes of BUF written since the last reset (R34); the others are free (70_reset R162). -/
  buf : Memory
  /-- The host's events not yet delivered, oldest first (00_scope R8, R9; log entry 2). -/
  pending : List Event
  /-- What the last transaction answered (00_scope R8; log entry 3). -/
  response : Option Response
  /-- The number of the last reset: it selects the free bytes of BUF (log entry 4). -/
  resets : Nat
  /-- How many unspecified read values were drawn (log entry 5). -/
  draws : Nat
  deriving DecidableEq, Repr

/-- The machine right after reset (10_state R37), with the parameters the spec takes (00_scope R5, R6),
no byte of BUF written and no event pending. -/
def State.reset : State where
  config := Config.default
  len := 0x0000#16
  result := 0x0000#16
  valid := false
  err := none
  mtype := 0x00#8
  mcode := 0x00#8
  mcsum := 0x0000#16
  mident := 0x0000#16
  mseq := 0x0000#16
  mpayload := 0x00000000#32
  buf := []
  pending := []
  response := none
  resets := 0
  draws := 0

/-- The outcome of a step or of a meaning. -/
abbrev Result := Host.Outcome State Fault Refusal

end Sys2Proof.Machine
end

