-- ==== Sys2Proof/Machine/Operands.lean ====
section
/-! DEFINITION. The operand forms: all are implicit (30_encoding R72, R73). Byte order is decided here,
once: big-endian everywhere (20_memory R56). -/

namespace Sys2Proof.Machine

/-- `h ∥ l`: the byte at the lower offset is the more significant (20_memory R56). -/
def joinBytes (h l : Byte) : Half := h ++ l

/-- Bits 15:8 of a 16-bit value. -/
def hiByte (w : Half) : Byte := w.extractLsb' 8 8

/-- Bits 7:0 of a 16-bit value. -/
def loByte (w : Half) : Byte := w.extractLsb' 0 8

/-- `v[8k+7:8k]` of a 32-bit value. -/
def quadByte (v : Quad) (k : Nat) : Byte := v.extractLsb' (8 * k) 8

/-- `b0 ∥ b1 ∥ b2 ∥ b3`. -/
def joinQuad (b0 b1 b2 b3 : Byte) : Quad := b0 ++ b1 ++ b2 ++ b3

/-- An ICMP message: "the sole entity" of the data model (10_state section 5), the operand of VALIDATE and
ENCODE and the result of DECODE. -/
structure Message where
  type : Byte
  code : Byte
  checksum : Half
  identifier : Half
  sequenceNumber : Half
  payload : Quad
  deriving DecidableEq, Repr

/-- The message with its checksum field zeroed: the working copy of VALIDATE (40_checksum R99, 10_state
R36). -/
def Message.zeroed (m : Message) : Message := { m with checksum := 0x0000#16 }

/-- The message held in the six message registers (10_state R28 to R33). -/
def State.message (s : State) : Message where
  type := s.mtype
  code := s.mcode
  checksum := s.mcsum
  identifier := s.mident
  sequenceNumber := s.mseq
  payload := s.mpayload

/-- Write all six message registers at once (41_serdes R126). -/
def State.setMessage (s : State) (m : Message) : State :=
  { s with
    mtype := m.type
    mcode := m.code
    mcsum := m.checksum
    mident := m.identifier
    mseq := m.sequenceNumber
    mpayload := m.payload }

end Sys2Proof.Machine
end

