-- ==== Sys2Proof/Machine/Layout.lean ====
section
/-! DEFINITION. The wire format (41_serdes R120) and its two pure functions (R121, R122). -/

namespace Sys2Proof.Machine

/-- `encode` (41_serdes R121): the 12 wire bytes of a message. -/
def encodeMessage (m : Message) : Vector Byte 12 :=
  #v[m.type,
     m.code,
     hiByte m.checksum, loByte m.checksum,
     hiByte m.identifier, loByte m.identifier,
     hiByte m.sequenceNumber, loByte m.sequenceNumber,
     quadByte m.payload 3, quadByte m.payload 2, quadByte m.payload 1, quadByte m.payload 0]

/-- `decode` (41_serdes R122): the message of 12 wire bytes; no byte value is rejected. -/
def decodeMessage (b : Vector Byte 12) : Message where
  type := b[0]
  code := b[1]
  checksum := joinBytes b[2] b[3]
  identifier := joinBytes b[4] b[5]
  sequenceNumber := joinBytes b[6] b[7]
  payload := joinQuad b[8] b[9] b[10] b[11]

end Sys2Proof.Machine
end

