-- ==== Sys2Proof/Machine/Flags.lean ====
section
/-! DEFINITION. The status register (10_state R23 to R25): the fault codes and the STATUS byte. The adder
produces no flag (40_checksum R90), so VALID and ERR are the only ones. -/

namespace Sys2Proof.Machine

/-- The code of a fault in STATUS.ERR (60_exceptions R140). -/
def EngineFault.code : EngineFault → BitVec 4
  | .illegalCommand => 1#4
  | .lenRange => 2#4
  | .shortMessage => 3#4
  | .badAccess => 4#4

/-- The 4-bit field STATUS.ERR: 0 when no fault is recorded (10_state R23). -/
def errCode : Option EngineFault → BitVec 4
  | none => 0#4
  | some f => f.code

/-- The STATUS byte: `ERR ∥ 0b000 ∥ VALID` (10_state R23). -/
def statusByte (err : Option EngineFault) (valid : Bool) : Byte :=
  errCode err ++ 0#3 ++ BitVec.ofBool valid

/-- VALIDATE's flag rule (40_checksum R99): VALID is 1 when the recomputed checksum equals the stored
one, bit for bit. -/
def validFlag (computed stored : Half) : Bool := computed == stored

end Sys2Proof.Machine
end

