-- ==== Sys2Proof/Machine/Ops.lean ====
section
/-! DEFINITION. The named operations over BUF and the registers, raising a fault (60_exceptions R141) and
the reset that alone leaves the faulted state (R152, 70_reset R160). -/

namespace Sys2Proof.Machine

/-! ### Memory -/

/-- The byte written at `a`, if any. -/
def Memory.lookup : Memory → Nat → Option Byte
  | [], _ => none
  | (k, v) :: m, a => if k = a then some v else Memory.lookup m a

/-- Write the byte `b` at `a`, keeping the offsets strictly rising. -/
def Memory.insert : Memory → Nat → Byte → Memory
  | [], a, b => [(a, b)]
  | (k, v) :: m, a, b =>
    if a < k then (a, b) :: (k, v) :: m
    else if a = k then (a, b) :: m
    else (k, v) :: Memory.insert m a b

/-- Write bytes at `a`, `a + 1`, ... -/
def Memory.insertBytes : Memory → Nat → List Byte → Memory
  | m, _, [] => m
  | m, a, b :: bs => Memory.insertBytes (Memory.insert m a b) (a + 1) bs

/-! ### BUF -/

/-- What a byte of BUF that nothing has written since reset reads as: a draw fixed at reset time
(10_state R34, 70_reset R162; log entry 4). -/
def State.unwrittenByte (s : State) (a : Nat) : Byte := Config.bufDraw s.resets a

/-- `BUF[a]` (00_scope section 6), for `a < BUF_BYTES`. -/
def State.bufByte (s : State) (a : Nat) : Byte :=
  (Memory.lookup s.buf a).getD (s.unwrittenByte a)

/-- `BUF[a] <- b`. -/
def State.setBufByte (s : State) (a : Nat) (b : Byte) : State :=
  { s with buf := Memory.insert s.buf a b }

/-- The bytes `a` to `a + n - 1` of BUF, `MemRead(a, n)` with its first byte first; undefined outside BUF
(00_scope section 6). -/
def State.memRead (s : State) (a n : Nat) : Option (Vector Byte n) :=
  if a + n ≤ s.config.bufBytes then some (Vector.ofFn fun i => s.bufByte (a + i.val)) else none

/-- Write bytes from offset `a` on, `MemWrite(a, n, v)` with `v`'s most significant byte first; undefined
outside BUF (00_scope section 6). -/
def State.memWrite {n : Nat} (s : State) (a : Nat) (bs : Vector Byte n) : Option State :=
  if a + n ≤ s.config.bufBytes then
    some { s with buf := Memory.insertBytes s.buf a bs.toList }
  else none

/-- Go on with the bytes a command reads; the model's fault outside BUF (log entry 7). -/
def State.withBytes (s : State) (a n : Nat) (k : Vector Byte n → State) : Result :=
  match s.memRead a n with
  | some bs => .next (k bs)
  | none => .fault .outsideBuffer

/-- Store a command's bytes and go on; the model's fault outside BUF (log entry 7). -/
def State.storing {n : Nat} (s : State) (a : Nat) (bs : Vector Byte n) (k : State → State) : Result :=
  match s.memWrite a bs with
  | some t => .next (k t)
  | none => .fault .outsideBuffer

/-! ### Faults and reset -/

/-- `raise f` (60_exceptions R141): the first fault wins, nothing else changes. -/
def State.raise (s : State) (f : EngineFault) : State :=
  match s.err with
  | none => { s with err := some f }
  | some _ => s

/-- The reset event (70_reset R160, 10_state R37): every register 0, not faulted, BUF unspecified anew. The
only way out of the faulted state (60_exceptions R152). The parameters, the host's events and the count of
draws are not the engine's state and stay (log entry 8). -/
def State.hardReset (s : State) : State :=
  { State.reset with
    config := s.config
    pending := s.pending
    resets := s.resets + 1
    draws := s.draws }

/-- The frozen state (60_exceptions R146, 20_memory R52): while ERR is not 0 a write or a command changes
nothing at all. -/
def State.unlessFaulted (s : State) (k : State → Result) : Result :=
  match s.err with
  | none => k s
  | some _ => .next s

/-- A command of the optional unit: without the unit its opcode is illegal (30_encoding R75). -/
def State.withSerdes (s : State) (k : State → Result) : Result :=
  if s.config.hasSerdes then k s else .next (s.raise .illegalCommand)

/-! ### Registers -/

/-- The value of a register the host may read (10_state R21, 20_memory R51): `none` where the read is
illegal, which is CMD, an unassigned number, and a message register without the optional unit. -/
def State.readReg? (s : State) : (r : Reg) → Option (BitVec r.width)
  | .cmd => none
  | .status => some (statusByte s.err s.valid)
  | .len => some s.len
  | .result => some s.result
  | .mtype => if s.config.hasSerdes then some s.mtype else none
  | .mcode => if s.config.hasSerdes then some s.mcode else none
  | .mcsum => if s.config.hasSerdes then some s.mcsum else none
  | .mident => if s.config.hasSerdes then some s.mident else none
  | .mseq => if s.config.hasSerdes then some s.mseq else none
  | .mpayload => if s.config.hasSerdes then some s.mpayload else none
  | .unassigned _ => none

/-- `reg[r] <- v` for a register the host may write (10_state R21, 20_memory R52): `none` where the write
is illegal, which is STATUS, RESULT, an unassigned number, and a message register without the optional
unit. CMD is no storage (R22): a write to it is a command and does not come here. -/
def State.writeReg? (s : State) : (r : Reg) → BitVec r.width → Option State
  | .cmd, _ => none
  | .status, _ => none
  | .len, v => some { s with len := v }
  | .result, _ => none
  | .mtype, v => if s.config.hasSerdes then some { s with mtype := v } else none
  | .mcode, v => if s.config.hasSerdes then some { s with mcode := v } else none
  | .mcsum, v => if s.config.hasSerdes then some { s with mcsum := v } else none
  | .mident, v => if s.config.hasSerdes then some { s with mident := v } else none
  | .mseq, v => if s.config.hasSerdes then some { s with mseq := v } else none
  | .mpayload, v => if s.config.hasSerdes then some { s with mpayload := v } else none
  | .unassigned _, _ => none

/-! ### Responses -/

/-- Answer the transaction. -/
def State.respond (s : State) (r : Response) : State := { s with response := some r }

/-- Answer a read of width `w` that raised BadAccess with a fresh unspecified value (60_exceptions R147). -/
def State.respondDraw (s : State) (w : Nat) : State :=
  { s with response := some (.value w (Config.readDraw w s.draws)), draws := s.draws + 1 }

/-- Answer an illegal read of register `r`: no value at all for an unassigned number, else a draw
(60_exceptions R147). -/
def State.respondIllegalRead (s : State) (r : Reg) : State :=
  match r.access with
  | .none => s.respond .noValue
  | .readWrite | .readOnly | .writeOnly => s.respondDraw r.width

/-- Answer the next state of an outcome. -/
def respondWith (r : Response) (o : Result) : Result :=
  match o with
  | .next s => .next (s.respond r)
  | .fault f => .fault f
  | .refused f => .refused f

/-- Put a command (a RegWrite to CMD, 10_state R22) in front of the host's pending events, so that the next
step delivers it (log entry 6). The command is the low byte of the `nbits`-bit word `w`. -/
def State.placeCommand (s : State) (nbits w : Nat) : State :=
  { s with
    pending := .transaction (.regWrite .cmd (BitVec.ofNat 8 (w % 2 ^ nbits))) :: s.pending }

end Sys2Proof.Machine
end

