-- ==== Sys2Proof/Machine/Checksum.lean ====
section
/-! DEFINITION. The checksum family (40_checksum): the adder, `compute`, COMPUTE and VALIDATE. -/

namespace Sys2Proof.Machine

/-- `oc_add16`, the one's-complement 16-bit adder with end-around carry (R90). -/
def ocAdd16 (a b : Half) : Half :=
  let t : BitVec 17 := a.setWidth 17 + b.setWidth 17
  t.extractLsb' 0 16 + (t.extractLsb' 16 1).setWidth 16

/-- The 16-bit words of a byte sequence: pairs from offset 0 upward, big-endian (R91); an odd last byte is
the high byte of a word whose low byte is zero (R92, 90_conflicts C1). -/
def wordsOf : List Byte → List Half
  | [] => []
  | [b] => [joinBytes b 0x00#8]
  | h :: l :: rest => joinBytes h l :: wordsOf rest

/-- ACC after the words have been added, from 0x0000 (R93, R94). -/
def ocSum (ws : List Half) : Half := ws.foldl ocAdd16 0x0000#16

/-- `compute` (R94, R95): the bitwise NOT of the accumulated sum. -/
def compute (bs : List Byte) : Half := ~~~ ocSum (wordsOf bs)

/-- One pass of R93's fold: what lies above bit 15 is added onto the low 16 bits. -/
def foldPass (t : Nat) : Nat := t % 65536 + t / 65536

/-- R93's loop, run for at most `fuel` passes. -/
def foldPasses : Nat → Nat → Nat
  | 0, t => t
  | fuel + 1, t => if 65535 < t then foldPasses fuel (foldPass t) else t

/-- `fold` (R93), the other construction the source allows: a wide sum folded until nothing lies above bit
15. Each pass lowers a value above 0xFFFF, so `t` passes are enough. -/
def fold (t : Nat) : Nat := foldPasses t t

/-- COMPUTE (R98): RESULT takes the checksum of `BUF[0 .. LEN-1]`; LenRange when LEN is above BUF_BYTES. -/
def execCompute (s : State) : Result :=
  s.unlessFaulted fun s =>
    if s.config.bufBytes < s.len.toNat then .next (s.raise .lenRange)
    else s.withBytes 0 s.len.toNat fun bs => { s with result := compute bs.toList }

/-- VALIDATE (R99, R100): VALID tells whether the checksum recomputed over the message with a zero checksum
field equals MCSUM. Nothing else changes. -/
def execValidate (s : State) : Result :=
  s.unlessFaulted fun s =>
    s.withSerdes fun s =>
      .next { s with valid := validFlag (compute (encodeMessage s.message.zeroed).toList) s.mcsum }

end Sys2Proof.Machine
end

