-- ==== Sys2Proof/Machine/Serdes.lean ====
section
/-! DEFINITION. The commands of the serializer/deserializer family (41_serdes): ENCODE and DECODE. -/

namespace Sys2Proof.Machine

/-- ENCODE (R125): `BUF[0 .. 11]` takes the wire bytes of the six message registers as they stand, and LEN
becomes 12. -/
def execEncode (s : State) : Result :=
  s.unlessFaulted fun s =>
    s.withSerdes fun s =>
      s.storing 0 (encodeMessage s.message) fun t => { t with len := 12#16 }

/-- DECODE (R126): the six message registers take the message in `BUF[0 .. 11]`; ShortMessage when LEN is
below 12. -/
def execDecode (s : State) : Result :=
  s.unlessFaulted fun s =>
    s.withSerdes fun s =>
      if s.len.toNat < 12 then .next (s.raise .shortMessage)
      else s.withBytes 0 12 fun bs => s.setMessage (decodeMessage bs)

end Sys2Proof.Machine
end

