-- ==== Sys2Proof/Machine/HostPort.lean ====
section
/-! DEFINITION. The four host transactions (20_memory R51 to R54), the reset event (70_reset R160), their
delivery one a step, and runs (00_scope R9). -/

namespace Sys2Proof.Machine

/-- `RegRead(r)` (20_memory R51): a legal read changes no state of the engine; an illegal one raises
BadAccess (60_exceptions R144) and answers as R147 says. -/
def regRead (r : Reg) (s : State) : Result :=
  match s.readReg? r with
  | some v => .next (s.respond (.value r.width v))
  | none => .next ((s.raise .badAccess).respondIllegalRead r)

/-- Execute the command `c` (30_encoding R71): a byte that names no command raises IllegalCommand (R74,
R75, 60_exceptions R142). -/
def runCommand (c : Byte) (s : State) : Result :=
  match decode s.config c with
  | .ok i => exec i s
  | .error _ => .next (s.raise .illegalCommand)

/-- A write to a register other than CMD (20_memory R52). -/
def storeReg (r : Reg) (v : BitVec r.width) (s : State) : Result :=
  match s.writeReg? r v with
  | some t => .next t
  | none => .next (s.raise .badAccess)

/-- What the write `RegWrite(r, v)` of an engine that is not faulted does: a command for CMD, else a
register write (20_memory R52). -/
def writeEffect (r : Reg) (v : BitVec r.width) (s : State) : Result :=
  match r, v with
  | .cmd, c => runCommand c s
  | r, v => storeReg r v s

/-- `RegWrite(r, v)` (20_memory R52). -/
def regWrite (r : Reg) (v : BitVec r.width) (s : State) : Result :=
  respondWith .done (s.unlessFaulted (writeEffect r v))

/-- `BufRead(a)` (20_memory R53). -/
def bufRead (a : Nat) (s : State) : Result :=
  if a < s.config.bufBytes then .next (s.respond (.value 8 (s.bufByte a)))
  else .next ((s.raise .badAccess).respondDraw 8)

/-- `BufWrite(a, b)` (20_memory R54): LEN is not updated. -/
def bufWrite (a : Nat) (b : Byte) (s : State) : Result :=
  respondWith .done <| s.unlessFaulted fun s =>
    if a < s.config.bufBytes then .next (s.setBufByte a b) else .next (s.raise .badAccess)

/-- One transaction, whole and atomic (00_scope R8, 20_memory R58). -/
def perform (t : Transaction) (s : State) : Result :=
  match t with
  | .regRead r => regRead r s
  | .regWrite r v => regWrite r v s
  | .bufRead a => bufRead a s
  | .bufWrite a b => bufWrite a b s

/-- One event from outside: a transaction, or a reset between two transactions (70_reset R160). -/
def deliver (e : Event) (s : State) : Result :=
  match e with
  | .transaction t => perform t s
  | .reset => .next s.hardReset

/-- Deliver the oldest pending event; with none pending the engine "does nothing until it comes" (70_reset
R161). -/
def advance (s : State) : Result :=
  match s.pending with
  | [] => .next s
  | e :: rest => deliver e { s with pending := rest }

/-- A run (00_scope R9): a finite sequence of events applied from a start state, stopping where the model
stops. -/
def runEvents : List Event → State → Result
  | [], s => .next s
  | e :: es, s =>
    match deliver e s with
    | .next t => runEvents es t
    | .fault f => .fault f
    | .refused f => .refused f

end Sys2Proof.Machine
end

