-- ==== Sys2Proof/Machine/Listing.lean ====
section
/-! DEFINITION. The listing language (30_encoding R77), the transaction tuples (R78) and the two
pseudo-commands (R79, R80). -/

namespace Sys2Proof.Machine

/-- One line of a listing (30_encoding R77). -/
inductive Line where
  /-- `WR <reg>, <value>`. -/
  | wr (r : Reg) (v : BitVec r.width)
  /-- `RD <reg>`. -/
  | rd (r : Reg)
  /-- `WB <offset>, <byte>`. -/
  | wb (a : Nat) (b : Byte)
  /-- `RB <offset>`. -/
  | rb (a : Nat)
  /-- `COMPUTE`, `VALIDATE`, `ENCODE`, `DECODE`. -/
  | command (i : Instr)
  /-- `CMD <value>`. -/
  | cmd (op : Byte)
  /-- `RESET`. -/
  | reset
  deriving DecidableEq, Repr

/-- What a line stands for (30_encoding R77). -/
def Line.event : Line → Event
  | .wr r v => .transaction (.regWrite r v)
  | .rd r => .transaction (.regRead r)
  | .wb a b => .transaction (.bufWrite a b)
  | .rb a => .transaction (.bufRead a)
  | .command i => .transaction (.regWrite .cmd (encode i))
  | .cmd op => .transaction (.regWrite .cmd op)
  | .reset => .reset

/-- Run a listing. -/
def runListing (ls : List Line) (s : State) : Result := runEvents (ls.map Line.event) s

/-- The first four lines of SEAL (30_encoding R79), up to the host's read of RESULT. -/
def sealOpen : List Line := [.wr .mcsum 0x0000#16, .command .encode, .command .compute, .rd .result]

/-- The last two lines of SEAL, with the value `c` the host read. -/
def sealClose (c : Half) : List Line := [.wr .mcsum c, .command .encode]

/-- CHECK (30_encoding R80). -/
def checkLines : List Line := [.command .decode, .command .validate, .rd .status]

/-- The kind of a transaction tuple (30_encoding R78). -/
inductive Kind where
  | rr | rw | br | bw
  deriving DecidableEq, Repr

/-- `(kind, address, data)` (30_encoding R78); `data` is absent for reads. -/
structure Tuple where
  kind : Kind
  address : Nat
  data : Option Nat
  deriving DecidableEq, Repr

/-- The tuple of a transaction (30_encoding R78). -/
def Transaction.tuple : Transaction → Tuple
  | .regRead r => ⟨.rr, r.number.toNat, none⟩
  | .regWrite r v => ⟨.rw, r.number.toNat, some v.toNat⟩
  | .bufRead a => ⟨.br, a, none⟩
  | .bufWrite a b => ⟨.bw, a, some b.toNat⟩

/-- The register write of data `d`, if `d` has the register's width; an unassigned number has none, so its
data is not looked at (log entry 10). -/
def registerWrite? (r : Reg) (d : Nat) : Option Transaction :=
  match r.access with
  | .none => some (.regWrite r 0)
  | .readWrite | .readOnly | .writeOnly =>
    if d < 2 ^ r.width then some (.regWrite r (BitVec.ofNat r.width d)) else none

/-- The transaction of a tuple: `none` where the address is no register number, data is missing or
superfluous, or the data does not fit (30_encoding R78, 10_state R21). -/
def Tuple.transaction? : Tuple → Option Transaction
  | ⟨.rr, n, none⟩ => if n < 16 then some (.regRead (Reg.ofNumber (BitVec.ofNat 4 n))) else none
  | ⟨.rw, n, some d⟩ =>
    if n < 16 then registerWrite? (Reg.ofNumber (BitVec.ofNat 4 n)) d else none
  | ⟨.br, a, none⟩ => some (.bufRead a)
  | ⟨.bw, a, some d⟩ => if d < 256 then some (.bufWrite a (BitVec.ofNat 8 d)) else none
  | ⟨.rr, _, some _⟩ | ⟨.rw, _, none⟩ | ⟨.br, _, some _⟩ | ⟨.bw, _, none⟩ => none

end Sys2Proof.Machine
end

