-- ==== Sys2Proof/Safety.lean ====
section
/-! DEFINITION. What counts as a safe state and a good end of a run (00_scope R5, R9), and the terms the
statements use. -/

namespace Sys2Proof.Machine

/-- The invariant of the machine: the parameters are within R5's bounds, BUF is in canonical form, and no
byte is held outside BUF (10_state R34). -/
abbrev State.Inv (s : State) : Prop :=
  s.config.wf ∧ Memory.wf s.buf ∧ ∀ c ∈ s.buf, c.1 < s.config.bufBytes

/-- A run that ends here has not gone wrong (00_scope R9): ERR is 0. -/
abbrev State.Succeeded (s : State) : Prop := s.err = none

/-- A command of the optional unit can run here: the engine is not faulted, BUF_BYTES is within R5's bounds
and the unit is present (00_scope R5, R6). -/
abbrev State.SerdesReady (s : State) : Prop :=
  s.err = none ∧ s.config.wf ∧ s.config.hasSerdes = true

/-- The transaction that issues the command byte `c` (10_state R22). -/
abbrev command (c : Byte) : Transaction := .regWrite .cmd c

/-- The transaction is a write: a RegWrite (a command included) or a BufWrite. -/
def Transaction.isWrite : Transaction → Bool
  | .regWrite _ _ | .bufWrite _ _ => true
  | .regRead _ | .bufRead _ => false

/-- `BUF[0 .. n-1]` as a list. -/
def State.bufPrefix (s : State) (n : Nat) : List Byte := (List.range n).map s.bufByte

/-- `BUF[0 .. 11]`, the place of a message (41_serdes R120). -/
def State.wireBytes (s : State) : Vector Byte 12 := Vector.ofFn fun i => s.bufByte i.val

/-- `T`, the plain sum of the words as a natural number (40_checksum section 3). -/
def wordTotal (ws : List Half) : Nat := (ws.map BitVec.toNat).sum

/-- The checksum of a message: `compute` over its wire bytes with the checksum field zero (40_checksum
R99). -/
def Message.checksumOf (m : Message) : Half := compute (encodeMessage m.zeroed).toList

/-- The message with its own checksum stored (30_encoding R79). -/
def Message.sealed (m : Message) : Message := { m with checksum := m.checksumOf }

/-- `T` of a message with a zero checksum field, field by field. -/
def Message.total (m : Message) : Nat :=
  256 * m.type.toNat + m.code.toNat + m.identifier.toNat + m.sequenceNumber.toNat +
    m.payload.toNat / 65536 + m.payload.toNat % 65536

end Sys2Proof.Machine
end

