-- ==== Sys2Proof/Certificates/Slice0/Obligations.lean ====
section
/-! DEFINITION. The statements for the provers. Each docstring names the rule of spec/ it formalises. A
statement whose rule the spec itself marks "[derived: ...]" is listed with basis 'derived'. -/

open Sys2Proof Sys2Proof.Machine

/-! ### The adder and the pure function compute -/

/-- 40_checksum R90, whole: the value of the adder in numbers, that the second addition of its pseudocode
cannot carry, and the three examples. -/
def Obligations.AdderHasEndAroundCarry : Prop :=
  (∀ a b : Half, (ocAdd16 a b).toNat =
    if a.toNat + b.toNat ≤ 0xFFFF then a.toNat + b.toNat else a.toNat + b.toNat - 0xFFFF) ∧
  (∀ a b : Half, (a.toNat + b.toNat) % 65536 + (a.toNat + b.toNat) / 65536 ≤ 0xFFFF) ∧
  ocAdd16 0xFFFF#16 0x0001#16 = 0x0001#16 ∧
  ocAdd16 0x8000#16 0x8000#16 = 0x0001#16 ∧
  ocAdd16 0x1234#16 0xEDCB#16 = 0xFFFF#16

/-- 40_checksum R91: the word at even offset `2 * i` has the byte at the lower offset in bits 15:8; words
are taken from offset 0 upward without overlap, so there are `ceil(n / 2)` of them. -/
def Obligations.WordsAreBigEndianPairs : Prop :=
  (∀ (bs : List Byte) (i : Nat) (h : 2 * i + 1 < bs.length),
    (wordsOf bs)[i]? = some (joinBytes bs[2 * i] bs[2 * i + 1])) ∧
  (∀ bs : List Byte, (wordsOf bs).length = (bs.length + 1) / 2) ∧
  ∀ h l : Byte, (joinBytes h l).toNat = 256 * h.toNat + l.toNat

/-- 40_checksum R92: an odd last byte adds one word of value `256 * B[n-1]`. -/
def Obligations.OddByteIsHighByte : Prop :=
  ∀ (bs : List Byte) (b : Byte), bs.length % 2 = 0 →
    ∃ w : Half, wordsOf (bs ++ [b]) = wordsOf bs ++ [w] ∧ w.toNat = 256 * b.toNat

/-- 40_checksum R93: the 16-bit accumulator and a wide sum folded until nothing lies above bit 15 give the
same value for every input, the closed form; `fold` is the loop of the rule; one pass is not always
enough. -/
def Obligations.WideAccumulatorFoldsToSameSum : Prop :=
  (∀ ws : List Half, (ocSum ws).toNat = fold (wordTotal ws)) ∧
  (∀ ws : List Half, (ocSum ws).toNat =
    if ∀ w ∈ ws, w = 0x0000#16 then 0 else (wordTotal ws - 1) % 0xFFFF + 1) ∧
  (∀ t : Nat, fold t = if 0xFFFF < t then fold (t % 65536 + t / 65536) else t) ∧
  (∀ t : Nat, fold t ≤ 0xFFFF) ∧
  foldPass 0x1FFFF = 0x10000 ∧ foldPass 0x10000 = 0x0001

/-- 40_checksum R94 and R95: `compute` is the loop of the rule's pseudocode, by offsets, and its output is
0xFFFF minus the sum, with no further adjustment. -/
def Obligations.ComputeIsTheLoopOfTheRule : Prop :=
  (∀ bs : List Byte,
    let acc := (List.range (bs.length / 2)).foldl
      (fun acc i => ocAdd16 acc (joinBytes (bs.getD (2 * i) 0) (bs.getD (2 * i + 1) 0))) 0x0000#16
    compute bs = ~~~ (if bs.length % 2 = 1 then
      ocAdd16 acc (joinBytes (bs.getD (bs.length - 1) 0) 0x00#8) else acc)) ∧
  ∀ bs : List Byte, (compute bs).toNat = 0xFFFF - (ocSum (wordsOf bs)).toNat

/-- 40_checksum R97, which the spec marks as derived from R92, R94, R96. -/
def Obligations.ShortSequences : Prop :=
  compute [] = 0xFFFF#16 ∧
  (∀ b : Byte, (compute [b]).toNat = 0xFFFF - 256 * b.toNat) ∧
  ∀ h l : Byte, (compute [h, l]).toNat = 0xFFFF - (256 * h.toNat + l.toNat)

/-- 40_checksum R102, which the spec marks as derived from R90, R93, R94: the closed form of the checksum,
and a nonzero accumulator never returns to 0x0000. -/
def Obligations.ChecksumClosedForm : Prop :=
  (∀ bs : List Byte, (compute bs).toNat =
    if wordTotal (wordsOf bs) = 0 then 0xFFFF else 0xFFFE - (wordTotal (wordsOf bs) - 1) % 0xFFFF) ∧
  ∀ (ws vs : List Half), ocSum ws ≠ 0x0000#16 → ocSum (ws ++ vs) ≠ 0x0000#16

/-- 40_checksum R103, which the spec marks as derived from R102: order of words, commutativity,
associativity, the two zeros; swapping the two bytes of a word does change the checksum in general. -/
def Obligations.WordOrderDoesNotMatter : Prop :=
  (∀ ws vs : List Half, ws.Perm vs → ocSum ws = ocSum vs) ∧
  (∀ a b : Half, ocAdd16 a b = ocAdd16 b a) ∧
  (∀ a b c : Half, ocAdd16 (ocAdd16 a b) c = ocAdd16 a (ocAdd16 b c)) ∧
  (∀ a : Half, ocAdd16 a 0x0000#16 = a) ∧
  (∀ a : Half, a ≠ 0x0000#16 → ocAdd16 a 0xFFFF#16 = a) ∧
  ocAdd16 0x0000#16 0xFFFF#16 = 0xFFFF#16 ∧
  ∃ h l : Byte, compute [h, l] ≠ compute [l, h]

/-- 40_checksum R104, which the spec marks as derived from R94, R95, R102: a checksum stored in the zero
field it was computed with makes the checksum of the whole 0x0000. -/
def Obligations.SealedSequenceSumsToZero : Prop :=
  ∀ (bs : List Byte) (k : Nat), bs[2 * k]? = some 0x00#8 → bs[2 * k + 1]? = some 0x00#8 →
    compute ((bs.set (2 * k) (hiByte (compute bs))).set (2 * k + 1) (loByte (compute bs))) = 0x0000#16

/-- 40_checksum R108, which the spec marks as derived from R92, R94, R103: appending one zero byte (after an
odd or an even length) changes nothing, nor do two after an even length. -/
def Obligations.ZeroPaddingKeepsChecksum : Prop :=
  (∀ bs : List Byte, compute (bs ++ [0x00#8]) = compute bs) ∧
  ∀ bs : List Byte, bs.length % 2 = 0 → compute (bs ++ [0x00#8, 0x00#8]) = compute bs

/-- 40_checksum R107, which the spec marks as derived from R102, R103: a word 0x0000 and a word 0xFFFF are
not told apart beside another nonzero word; the two requests of the rule both have checksum 0x482E. -/
def Obligations.ZeroAndAllOnesWordsLookAlike : Prop :=
  (∀ before after : List Half, (∃ w ∈ before ++ after, w ≠ 0x0000#16) →
    ocSum (before ++ 0x0000#16 :: after) = ocSum (before ++ 0xFFFF#16 :: after)) ∧
  Message.checksumOf ⟨8#8, 0#8, 0#16, 0x1234#16, 0x0000#16, 0xDEADBEEF#32⟩ = 0x482E#16 ∧
  Message.checksumOf ⟨8#8, 0#8, 0#16, 0x1234#16, 0xFFFF#16, 0xDEADBEEF#32⟩ = 0x482E#16

/-! ### The wire format -/

/-- 41_serdes R121: where each field of a message stands in the 12 bytes, most significant byte first. -/
def Obligations.EncodeLaysFieldsOutBigEndian : Prop :=
  ∀ m : Message,
    let b := encodeMessage m
    b[0] = m.type ∧ b[1] = m.code ∧
    256 * b[2].toNat + b[3].toNat = m.checksum.toNat ∧
    256 * b[4].toNat + b[5].toNat = m.identifier.toNat ∧
    256 * b[6].toNat + b[7].toNat = m.sequenceNumber.toNat ∧
    16777216 * b[8].toNat + 65536 * b[9].toNat + 256 * b[10].toNat + b[11].toNat = m.payload.toNat

/-- 41_serdes R122: each field is read from its bytes, most significant byte first, from any 12 bytes. -/
def Obligations.DecodeReadsFieldsBigEndian : Prop :=
  ∀ b : Vector Byte 12,
    let m := decodeMessage b
    m.type = b[0] ∧ m.code = b[1] ∧
    m.checksum.toNat = 256 * b[2].toNat + b[3].toNat ∧
    m.identifier.toNat = 256 * b[4].toNat + b[5].toNat ∧
    m.sequenceNumber.toNat = 256 * b[6].toNat + b[7].toNat ∧
    m.payload.toNat =
      16777216 * b[8].toNat + 65536 * b[9].toNat + 256 * b[10].toNat + b[11].toNat

/-- 41_serdes R123, which the spec marks as derived from R121, R122: the two functions are inverse
bijections. -/
def Obligations.MessageEncodingIsABijection : Prop :=
  (∀ m : Message, decodeMessage (encodeMessage m) = m) ∧
  ∀ b : Vector Byte 12, encodeMessage (decodeMessage b) = b

/-! ### Encodings -/

/-- 30_encoding section 2 with R75: a byte decodes to a command exactly when it is the command's opcode and
the command exists under the parameters; so decode of encode is the identity on the commands that exist. -/
def Obligations.OpcodeMapIsExact : Prop :=
  ∀ (c : Config) (op : Byte) (i : Instr),
    decode c op = .ok i ↔ op = encode i ∧ i.wellFormed c = true

/-- The four rows of the opcode table, and the two bytes beside them (30_encoding section 2). -/
def Obligations.OpcodeWordsDecode : Prop :=
  decodeTableWord 8 0b00000001 = some .compute ∧
  decodeTableWord 8 0b00000010 = some .validate ∧
  decodeTableWord 8 0b00000011 = some .encode ∧
  decodeTableWord 8 0b00000100 = some .decode ∧
  decodeTableWord 8 0b00000000 = none ∧
  decodeTableWord 8 0b00000101 = none

/-- 30_encoding R78: the kind, the address and the data (absent for reads) of the tuple of every transaction,
and the three examples of the rule. That the tuple reads back as its transaction, and that data written to an
unassigned number has width 0, is the model's choice (DESIGN CHOICE, log entry 10). -/
def Obligations.TransactionTupleRoundTrip : Prop :=
  (∀ t : Transaction, t.tuple.transaction? = some t) ∧
  (∀ r : Reg, Transaction.tuple (.regRead r) = ⟨.rr, r.number.toNat, none⟩) ∧
  (∀ (r : Reg) (v : BitVec r.width),
    Transaction.tuple (.regWrite r v) = ⟨.rw, r.number.toNat, some v.toNat⟩) ∧
  (∀ a : Nat, Transaction.tuple (.bufRead a) = ⟨.br, a, none⟩) ∧
  (∀ (a : Nat) (b : Byte), Transaction.tuple (.bufWrite a b) = ⟨.bw, a, some b.toNat⟩) ∧
  Transaction.tuple (.regWrite .mseq 5#16) = ⟨.rw, 0x8, some 0x0005⟩ ∧
  Transaction.tuple (.regWrite .cmd (encode .compute)) = ⟨.rw, 0x0, some 0x01⟩ ∧
  Transaction.tuple (.bufWrite 3 0xC1#8) = ⟨.bw, 0x003, some 0xC1⟩

/-- 10_state section 2: the register table row by row (number, width, host access), every 4-bit number names
one register, and which registers the model lets the host read and write is what the access column says, for
every value of HAS_SERDES. That an unassigned number, which has no width, has width 0 in the model is log
entry 10 (DESIGN CHOICE) and not said here. -/
def Obligations.RegisterMapMatchesAccessColumn : Prop :=
  (Reg.number .cmd = 0x0#4 ∧ Reg.width .cmd = 8 ∧ Reg.access .cmd = .writeOnly) ∧
  (Reg.number .status = 0x1#4 ∧ Reg.width .status = 8 ∧ Reg.access .status = .readOnly) ∧
  (Reg.number .len = 0x2#4 ∧ Reg.width .len = 16 ∧ Reg.access .len = .readWrite) ∧
  (Reg.number .result = 0x3#4 ∧ Reg.width .result = 16 ∧ Reg.access .result = .readOnly) ∧
  (Reg.number .mtype = 0x4#4 ∧ Reg.width .mtype = 8 ∧ Reg.access .mtype = .readWrite) ∧
  (Reg.number .mcode = 0x5#4 ∧ Reg.width .mcode = 8 ∧ Reg.access .mcode = .readWrite) ∧
  (Reg.number .mcsum = 0x6#4 ∧ Reg.width .mcsum = 16 ∧ Reg.access .mcsum = .readWrite) ∧
  (Reg.number .mident = 0x7#4 ∧ Reg.width .mident = 16 ∧ Reg.access .mident = .readWrite) ∧
  (Reg.number .mseq = 0x8#4 ∧ Reg.width .mseq = 16 ∧ Reg.access .mseq = .readWrite) ∧
  (Reg.number .mpayload = 0x9#4 ∧ Reg.width .mpayload = 32 ∧ Reg.access .mpayload = .readWrite) ∧
  (∀ k : Fin 6, (Reg.number (.unassigned k)).toNat = 0xA + k.val ∧
    Reg.access (.unassigned k) = .none) ∧
  (∀ r : Reg, r.isMessage = true ↔ 0x4#4 ≤ r.number ∧ r.number ≤ 0x9#4) ∧
  (∀ n : BitVec 4, (Reg.ofNumber n).number = n) ∧
  (∀ r : Reg, Reg.ofNumber r.number = r) ∧
  (∀ (s : State) (r : Reg), (s.readReg? r).isSome = true ↔
    (r.access = .readWrite ∨ r.access = .readOnly) ∧ (r.isMessage = true → s.config.hasSerdes = true)) ∧
  ∀ (s : State) (r : Reg) (v : BitVec r.width), (s.writeReg? r v).isSome = true ↔
    r.access = .readWrite ∧ (r.isMessage = true → s.config.hasSerdes = true)

/-! ### The commands -/

/-- 40_checksum R98: COMPUTE writes RESULT and nothing else, over the bytes below LEN; LenRange exactly when
LEN is above BUF_BYTES; LEN = 0 gives 0xFFFF. -/
def Obligations.ComputeStoresChecksum : Prop :=
  ∀ s : State, s.err = none →
    (s.len.toNat ≤ s.config.bufBytes →
      exec .compute s = .next { s with result := compute (s.bufPrefix s.len.toNat) }) ∧
    (s.config.bufBytes < s.len.toNat → exec .compute s = .next { s with err := some .lenRange }) ∧
    (s.len = 0x0000#16 → exec .compute s = .next { s with result := 0xFFFF#16 })

/-- 60_exceptions R143: LEN above BUF_BYTES makes COMPUTE raise LenRange with RESULT unchanged, LEN equal to
BUF_BYTES is accepted, writing any value to LEN is no fault, and DECODE does not raise it. -/
def Obligations.OversizedLenRaisesLenRange : Prop :=
  ∀ s : State, s.err = none →
    (s.config.bufBytes < s.len.toNat →
      ∃ t, exec .compute s = .next t ∧ t.err = some .lenRange ∧ t.result = s.result) ∧
    (s.len.toNat = s.config.bufBytes → ∃ t, exec .compute s = .next t ∧ t.err = none) ∧
    (∀ v : Half, ∃ t, perform (.regWrite .len v) s = .next t ∧ t.err = none ∧ t.len = v) ∧
    (s.SerdesReady → s.config.bufBytes < s.len.toNat →
      ∃ t, exec .decode s = .next t ∧ t.err = none)

/-- LEN above BUF_BYTES stops no command but COMPUTE: VALIDATE and ENCODE have "Faults: none" (40_checksum
section 2, 41_serdes section 2) and DECODE does not raise LenRange (60_exceptions section 2). -/
def Obligations.OversizedLenStopsNoOtherCommand : Prop :=
  ∀ (s : State) (i : Instr), s.SerdesReady → s.config.bufBytes < s.len.toNat → i ≠ .compute →
    ∃ t, exec i s = .next t ∧ t.err = none

/-- 40_checksum R98's corner case "bytes at offsets `>= LEN` do not matter": two engines that agree on LEN
and on the bytes below it get the same RESULT. -/
def Obligations.ComputeReadsOnlyThePrefix : Prop :=
  ∀ s t : State, s.err = none → t.err = none → s.len = t.len →
    s.len.toNat ≤ s.config.bufBytes → t.len.toNat ≤ t.config.bufBytes →
    (∀ a, a < s.len.toNat → s.bufByte a = t.bufByte a) →
    ∃ u v, exec .compute s = .next u ∧ exec .compute t = .next v ∧ u.result = v.result

/-- 40_checksum R99 and R100: VALIDATE writes VALID and nothing else, from the exact comparison of the
recomputed checksum with MCSUM; its opcode is 0x02, and it exists only with HAS_SERDES = true. -/
def Obligations.ValidateSetsValidOnly : Prop :=
  (encode .validate = 0x02#8 ∧
    ∀ c : Config, decode c 0x02#8 = .ok .validate ↔ c.hasSerdes = true) ∧
  ∀ s : State, s.err = none → s.config.hasSerdes = true →
    exec .validate s = .next { s with valid := decide (
      compute (encodeMessage ⟨s.mtype, s.mcode, 0x0000#16, s.mident, s.mseq, s.mpayload⟩).toList
        = s.mcsum) }

/-- 30_encoding section 4 (opcodes 0x02 to 0x04 without the optional unit) in terms of exec: the three
commands of the unit raise IllegalCommand and change nothing else. That exec of a command the decoder does
not give, because the unit is absent, is this is log entry 12 (DEDUCED). -/
def Obligations.AbsentUnitCommandsAreIllegal : Prop :=
  ∀ (s : State) (i : Instr), s.err = none → s.config.hasSerdes = false → i ≠ .compute →
    exec i s = .next { s with err := some .illegalCommand }

/-- What "valid" means (40_checksum R101) with the closed form the spec derives (R102): VALID becomes 1
exactly when MCSUM is the complement of the end-around sum of the message's words, the sum written out field
by field. -/
def Obligations.ValidMeansWordSumMatches : Prop :=
  ∀ s : State, s.err = none → s.config.hasSerdes = true →
    ∃ t, exec .validate s = .next t ∧
      (t.valid = true ↔ s.mcsum.toNat =
        if s.message.total = 0 then 0xFFFF else 0xFFFE - (s.message.total - 1) % 0xFFFF)

/-- 41_serdes R125: ENCODE writes the 12 wire bytes of the message registers as they stand to offsets 0 to
11 and 12 to LEN; every other byte of BUF and every other register keeps its value; its opcode is 0x03, and
it exists only with HAS_SERDES = true. -/
def Obligations.EncodeWritesWireBytesAndLen : Prop :=
  (encode .encode = 0x03#8 ∧
    ∀ c : Config, decode c 0x03#8 = .ok .encode ↔ c.hasSerdes = true) ∧
  ∀ s : State, s.SerdesReady →
    ∃ t, exec .encode s = .next t ∧
      t = { s with buf := t.buf, len := 12#16 } ∧
      (∀ (i : Nat) (h : i < 12), t.bufByte i = (encodeMessage s.message)[i]) ∧
      ∀ a, 12 ≤ a → t.bufByte a = s.bufByte a

/-- 41_serdes R126 and 60_exceptions R145: DECODE writes the six message registers from offsets 0 to 11 and
nothing else when LEN is at least 12 (also above BUF_BYTES), and raises ShortMessage with nothing written
when LEN is below 12; its opcode is 0x04, and it exists only with HAS_SERDES = true. -/
def Obligations.DecodeFillsMessageRegisters : Prop :=
  (encode .decode = 0x04#8 ∧
    ∀ c : Config, decode c 0x04#8 = .ok .decode ↔ c.hasSerdes = true) ∧
  ∀ s : State, s.err = none → s.config.hasSerdes = true →
    (s.config.wf → 12 ≤ s.len.toNat →
      exec .decode s = .next { s with
        mtype := s.bufByte 0
        mcode := s.bufByte 1
        mcsum := s.bufByte 2 ++ s.bufByte 3
        mident := s.bufByte 4 ++ s.bufByte 5
        mseq := s.bufByte 6 ++ s.bufByte 7
        mpayload := s.bufByte 8 ++ s.bufByte 9 ++ s.bufByte 10 ++ s.bufByte 11 }) ∧
    (s.len.toNat < 12 → exec .decode s = .next { s with err := some .shortMessage })

/-- 41_serdes R129, which the spec marks as derived: ENCODE then DECODE is the identity on the message
registers; DECODE then ENCODE is the identity on BUF when LEN is at least 12, and sets LEN to 12. -/
def Obligations.EncodeAndDecodeUndoEachOther : Prop :=
  ∀ s : State, s.SerdesReady →
    (∃ t, exec .encode s = .next t ∧ exec .decode t = .next t ∧ t.message = s.message) ∧
    (12 ≤ s.len.toNat → ∃ t u, exec .decode s = .next t ∧ exec .encode t = .next u ∧
      u.len = 12#16 ∧ ∀ a, u.bufByte a = s.bufByte a)

/-! ### The host's transactions -/

/-- 20_memory R51: a legal RegRead returns the register at its own width and changes no state of the engine;
an illegal one sets ERR to BadAccess only if ERR was 0 and changes nothing else (beside the model's own record
of the response and of the draws). What an illegal read answers is `IllegalReadsAnswerFreshDraws`. -/
def Obligations.RegReadReturnsRegister : Prop :=
  ∀ s : State,
    perform (.regRead .status) s =
      .next { s with response := some (.value 8 (statusByte s.err s.valid)) } ∧
    perform (.regRead .len) s = .next { s with response := some (.value 16 s.len) } ∧
    perform (.regRead .result) s = .next { s with response := some (.value 16 s.result) } ∧
    (s.config.hasSerdes = true →
      perform (.regRead .mtype) s = .next { s with response := some (.value 8 s.mtype) } ∧
      perform (.regRead .mcode) s = .next { s with response := some (.value 8 s.mcode) } ∧
      perform (.regRead .mcsum) s = .next { s with response := some (.value 16 s.mcsum) } ∧
      perform (.regRead .mident) s = .next { s with response := some (.value 16 s.mident) } ∧
      perform (.regRead .mseq) s = .next { s with response := some (.value 16 s.mseq) } ∧
      perform (.regRead .mpayload) s = .next { s with response := some (.value 32 s.mpayload) }) ∧
    (∃ v u, perform (.regRead .cmd) s = .next u ∧
      u = { s with
        err := some (s.err.getD .badAccess)
        response := some (.value 8 v)
        draws := u.draws }) ∧
    (∀ r : Reg, r.isMessage = true → s.config.hasSerdes = false →
      ∃ w v u, perform (.regRead r) s = .next u ∧
        u = { s with
          err := some (s.err.getD .badAccess)
          response := some (.value w v)
          draws := u.draws }) ∧
    ∀ k, ∃ u, perform (.regRead (.unassigned k)) s = .next u ∧
      u = { s with
        err := some (s.err.getD .badAccess)
        response := u.response
        draws := u.draws }

/-- What a read that raises BadAccess answers (60_exceptions section 2), in the faulted state or not: a free
value of the width of the access at the count of draws, no value at all for an unassigned number; and no event
turns the count back, so each draw is a fresh one. The counter is the model's (DESIGN CHOICE, log entry 5), and
so is that an absent message register is read at the width of its number (DEDUCED, log entry 13). -/
def Obligations.IllegalReadsAnswerFreshDraws : Prop :=
  (∀ (s : State) (r : Reg), r = .cmd ∨ (r.isMessage = true ∧ s.config.hasSerdes = false) →
    perform (.regRead r) s = .next { s with
      err := some (s.err.getD .badAccess)
      response := some (.value r.width (Config.readDraw r.width s.draws))
      draws := s.draws + 1 }) ∧
  (∀ (s : State) (a : Nat), s.config.bufBytes ≤ a →
    perform (.bufRead a) s = .next { s with
      err := some (s.err.getD .badAccess)
      response := some (.value 8 (Config.readDraw 8 s.draws))
      draws := s.draws + 1 }) ∧
  (∀ (s : State) (k : Fin 6), perform (.regRead (.unassigned k)) s = .next { s with
    err := some (s.err.getD .badAccess)
    response := some .noValue }) ∧
  ∀ (e : Event) (s t : State), deliver e s = .next t → s.draws ≤ t.draws

/-- 10_state R23: the fields of the STATUS byte, the fault codes, the value a RegRead of STATUS returns, and
that a RegWrite to STATUS is a BadAccess fault. -/
def Obligations.StatusByteFields : Prop :=
  (∀ (e : Option EngineFault) (v : Bool),
    (statusByte e v).toNat = 16 * (errCode e).toNat + v.toNat ∧ (errCode e).toNat ≤ 4) ∧
  errCode none = 0#4 ∧ errCode (some .illegalCommand) = 1#4 ∧ errCode (some .lenRange) = 2#4 ∧
  errCode (some .shortMessage) = 3#4 ∧ errCode (some .badAccess) = 4#4 ∧
  ∀ s : State,
    perform (.regRead .status) s =
      .next { s with response := some (.value 8 (statusByte s.err s.valid)) } ∧
    ∀ v, s.err = none → perform (.regWrite .status v) s =
      .next { s with err := some .badAccess, response := some .done }

/-- 20_memory R52: in an engine that is not faulted a RegWrite to LEN or to a message register changes that
register and nothing else, a RegWrite to CMD executes the command, and any other RegWrite raises BadAccess;
in a faulted one nothing changes. -/
def Obligations.RegWriteStoresOneRegister : Prop :=
  (∀ s : State, s.err = none →
    (∀ v, perform (.regWrite .len v) s = .next { s with len := v, response := some .done }) ∧
    (s.config.hasSerdes = true →
      (∀ v, perform (.regWrite .mtype v) s = .next { s with mtype := v, response := some .done }) ∧
      (∀ v, perform (.regWrite .mcode v) s = .next { s with mcode := v, response := some .done }) ∧
      (∀ v, perform (.regWrite .mcsum v) s = .next { s with mcsum := v, response := some .done }) ∧
      (∀ v, perform (.regWrite .mident v) s = .next { s with mident := v, response := some .done }) ∧
      (∀ v, perform (.regWrite .mseq v) s = .next { s with mseq := v, response := some .done }) ∧
      (∀ v, perform (.regWrite .mpayload v) s =
        .next { s with mpayload := v, response := some .done })) ∧
    (∀ (c : Byte) (i : Instr), decode s.config c = .ok i →
      perform (command c) s = respondWith .done (exec i s)) ∧
    (∀ (c : Byte) (e : DecodeReject), decode s.config c = .error e →
      perform (command c) s =
        .next { s with err := some .illegalCommand, response := some .done }) ∧
    ∀ (r : Reg) (v : BitVec r.width),
      r = .status ∨ r = .result ∨ r.access = .none ∨ (r.isMessage = true ∧ s.config.hasSerdes = false) →
      perform (.regWrite r v) s = .next { s with err := some .badAccess, response := some .done }) ∧
  ∀ (s : State) (f : EngineFault) (r : Reg) (v : BitVec r.width), s.err = some f →
    perform (.regWrite r v) s = .next { s with response := some .done }

/-- 20_memory R53: BufRead returns the byte and changes nothing for an offset below BUF_BYTES, else raises
BadAccess (only if ERR was 0) and returns some byte. -/
def Obligations.BufReadReturnsByte : Prop :=
  ∀ (s : State) (a : Nat),
    (a < s.config.bufBytes →
      perform (.bufRead a) s = .next { s with response := some (.value 8 (s.bufByte a)) }) ∧
    (s.config.bufBytes ≤ a → ∃ v, perform (.bufRead a) s = .next { s with
      err := some (s.err.getD .badAccess)
      response := some (.value 8 v)
      draws := s.draws + 1 })

/-- 20_memory R54: in an engine that is not faulted BufWrite stores one byte below BUF_BYTES and changes
nothing else (LEN is not updated), and raises BadAccess from BUF_BYTES on; in a faulted one nothing
changes. -/
def Obligations.BufWriteStoresOneByte : Prop :=
  ∀ (s : State) (a : Nat) (b : Byte),
    (s.err = none → a < s.config.bufBytes →
      ∃ t, perform (.bufWrite a b) s = .next t ∧
        t = { s with buf := t.buf, response := some .done } ∧
        t.bufByte a = b ∧ ∀ c, c ≠ a → t.bufByte c = s.bufByte c) ∧
    (s.err = none → s.config.bufBytes ≤ a →
      perform (.bufWrite a b) s = .next { s with err := some .badAccess, response := some .done }) ∧
    ∀ f, s.err = some f → perform (.bufWrite a b) s = .next { s with response := some .done }

/-- 60_exceptions R144: the accesses that raise BadAccess in an engine that is not faulted, and the nearest
accepted ones beside them. -/
def Obligations.IllegalAccessesRaiseBadAccess : Prop :=
  ∀ s : State, s.err = none → s.config.wf →
    (∀ t : Transaction,
      ((∃ r : Reg, (r.access = .none ∨ (r.isMessage = true ∧ s.config.hasSerdes = false)) ∧
          (t = .regRead r ∨ ∃ v, t = .regWrite r v)) ∨
        (∃ v, t = .regWrite .status v) ∨ (∃ v, t = .regWrite .result v) ∨ t = .regRead .cmd ∨
        (∃ a, s.config.bufBytes ≤ a ∧ (t = .bufRead a ∨ ∃ b, t = .bufWrite a b))) →
      ∃ u, perform t s = .next u ∧ u.err = some .badAccess) ∧
    (s.config.hasSerdes = true → ∃ u, perform (.regRead .mpayload) s = .next u ∧ u.err = none) ∧
    (∃ u, perform (.regRead .status) s = .next u ∧ u.err = none) ∧
    (∀ v, ∃ u, perform (.regWrite .len v) s = .next u ∧ u.err = none) ∧
    ∃ u, perform (.bufRead (s.config.bufBytes - 1)) s = .next u ∧ u.err = none

/-- 30_encoding R74, R75 and 60_exceptions R142: a command byte that is no opcode sets ERR to IllegalCommand
and changes nothing else; without the optional unit 0x02, 0x03 and 0x04 do the same; 0x01 and, with the
unit, 0x04 are accepted as commands. -/
def Obligations.IllegalOpcodesRaiseIllegalCommand : Prop :=
  ∀ s : State, s.err = none →
    (∀ c : Byte, c = 0x00#8 ∨ 0x05#8 ≤ c ∨ (s.config.hasSerdes = false ∧ 0x02#8 ≤ c ∧ c ≤ 0x04#8) →
      perform (command c) s =
        .next { s with err := some .illegalCommand, response := some .done }) ∧
    perform (command 0x01#8) s = respondWith .done (exec .compute s) ∧
    (s.config.hasSerdes = true → perform (command 0x04#8) s = respondWith .done (exec .decode s))

/-- 20_memory R60's "A read returns the value left by the latest earlier write", for a write followed by a
read: any register the host may both write and read, and any byte of BUF. -/
def Obligations.ReadAfterWriteReturnsTheValue : Prop :=
  ∀ s : State, s.err = none →
    (∀ (r : Reg) (v : BitVec r.width), (s.writeReg? r v).isSome = true →
      ∃ t, runEvents [.transaction (.regWrite r v), .transaction (.regRead r)] s = .next t ∧
        t.response = some (.value r.width v)) ∧
    ∀ (a : Nat) (b : Byte), a < s.config.bufBytes →
      ∃ t, runEvents [.transaction (.bufWrite a b), .transaction (.bufRead a)] s = .next t ∧
        t.response = some (.value 8 b)

/-- 20_memory R58's idempotency, which the spec marks as derived: every write, a command included, applied
again changes nothing more. -/
def Obligations.WritesAndCommandsAreIdempotent : Prop :=
  ∀ (w : Transaction) (s t : State), s.Inv → w.isWrite = true →
    perform w s = .next t → perform w t = .next t

/-! ### Faults and reset -/

/-- 60_exceptions R146: while ERR is not 0 every command, RegWrite and BufWrite changes nothing, every legal
read returns its value as usual, and an illegal read changes nothing of the engine. -/
def Obligations.FaultedEngineIsFrozen : Prop :=
  ∀ (s : State) (f : EngineFault), s.err = some f →
    (∀ i : Instr, exec i s = .next s) ∧
    (∀ t : Transaction, t.isWrite = true → perform t s = .next { s with response := some .done }) ∧
    (∀ (r : Reg) (v : BitVec r.width), s.readReg? r = some v →
      perform (.regRead r) s = .next { s with response := some (.value r.width v) }) ∧
    (∀ a, a < s.config.bufBytes →
      perform (.bufRead a) s = .next { s with response := some (.value 8 (s.bufByte a)) }) ∧
    (∀ (r : Reg), s.readReg? r = none → ∃ u, perform (.regRead r) s = .next u ∧
      u = { s with response := u.response, draws := u.draws }) ∧
    ∀ a, s.config.bufBytes ≤ a → ∃ u, perform (.bufRead a) s = .next u ∧
      u = { s with response := u.response, draws := u.draws }

/-- 60_exceptions R141: a transaction that raises a fault changes nothing except ERR (beside the model's own
record of the response and of the draws), and a fault already recorded is not overwritten. -/
def Obligations.FaultsArePrecise : Prop :=
  (∀ (t : Transaction) (s u : State) (f : EngineFault), s.err = none → perform t s = .next u →
    u.err = some f → u = { s with err := some f, response := u.response, draws := u.draws }) ∧
  ∀ (t : Transaction) (s u : State) (f : EngineFault), s.err = some f → perform t s = .next u →
    u.err = some f

/-- 60_exceptions section 6: no transaction clears or replaces a recorded fault, and reset does: it gives the
reset state. That the reset is a pending event that keeps the parameters, the events behind it and the count
of draws and clears the response is log entry 8 (DESIGN CHOICE), that it adds 1 to the reset's number is log
entry 4 (DESIGN CHOICE). -/
def Obligations.OnlyResetLeavesTheFaultedState : Prop :=
  ∀ (s : State) (f : EngineFault), s.err = some f →
    (∀ t : Transaction, ∃ u, perform t s = .next u ∧ u.err = some f) ∧
    deliver .reset s = .next { State.reset with
      config := s.config, pending := s.pending, resets := s.resets + 1, draws := s.draws }

/-- 10_state R37: the state after reset, register by register; every byte of BUF is the free value of the
reset that left it. -/
def Obligations.StateAfterReset : Prop :=
  State.reset.len = 0x0000#16 ∧ State.reset.result = 0x0000#16 ∧ State.reset.valid = false ∧
  State.reset.err = none ∧ State.reset.mtype = 0x00#8 ∧ State.reset.mcode = 0x00#8 ∧
  State.reset.mcsum = 0x0000#16 ∧ State.reset.mident = 0x0000#16 ∧ State.reset.mseq = 0x0000#16 ∧
  State.reset.mpayload = 0x00000000#32 ∧
  statusByte State.reset.err State.reset.valid = 0x00#8 ∧
  ∀ a, State.reset.bufByte a = Config.bufDraw State.reset.resets a

/-- 70_reset section 1: the reset event, from any state, faulted or not, gives every register 0, ERR 0, VALID 0
and every byte of BUF the free value of the new reset. The reset's number is the model's (DESIGN CHOICE, log
entry 4), and so is the reset as an event that keeps the parameters (DESIGN CHOICE, log entry 8). -/
def Obligations.ResetEventGivesResetState : Prop :=
  ∀ s : State, ∃ t, deliver .reset s = .next t ∧
    t.len = 0x0000#16 ∧ t.result = 0x0000#16 ∧ t.valid = false ∧ t.err = none ∧
    t.message = ⟨0x00#8, 0x00#8, 0x0000#16, 0x0000#16, 0x0000#16, 0x00000000#32⟩ ∧
    t.config = s.config ∧ t.resets = s.resets + 1 ∧ ∀ a, t.bufByte a = Config.bufDraw (s.resets + 1) a

/-! ### Steps, runs and whole-machine rules -/

/-- 00_scope section 5 and 20_memory section 2: a step with a command byte at the head of the pending events
that decodes to a well-formed command runs that command, and answers it; the event is taken off the list. That
the host's events stand in State as a list a step takes the head of is log entry 2, that the response stands in
State is log entry 3 (both DESIGN CHOICE). -/
def Obligations.StepRunsDecodedInstruction : Prop :=
  ∀ (s : State) (c : Byte) (rest : List Event) (i : Instr),
    s.pending = .transaction (command c) :: rest → decode s.config c = .ok i →
    step s = respondWith .done (exec i { s with pending := rest })

/-- 00_scope section 5 and 70_reset section 1: a step delivers the oldest pending event and no other, and
with none pending the engine does nothing; the host's command word placed in front is the next event. -/
def Obligations.StepDeliversOldestEvent : Prop :=
  (∀ (s : State) (e : Event) (rest : List Event), s.pending = e :: rest →
    step s = deliver e { s with pending := rest }) ∧
  (∀ s : State, s.pending = [] → step s = .next s) ∧
  ∀ (s : State) (i : Instr), i.wellFormed s.config = true →
    step (s.withFetchWord 8 (encode i).toNat) = respondWith .done (exec i s)

/-- 00_scope R9: a run of a finite sequence of events is what as many steps make of them, in the order the
host issued them. -/
def Obligations.RunIsStepByStep : Prop :=
  ∀ (es : List Event) (s : State), s.pending = [] →
    Host.Core.run Sys2Proof.core es.length ({ s with pending := es } : State) = runEvents es s

/-- 00_scope section 5: the step is total; no step of an engine with legal parameters faults the model or is
refused. -/
def Obligations.EveryStepCompletes : Prop :=
  ∀ s : State, s.config.wf → ∃ t, step s = .next t

/-- The invariant (legal parameters, BUF in canonical form, no byte outside BUF) is kept by every step from
every state that has it. -/
def Obligations.StepKeepsInvariant : Prop :=
  ∀ s t : State, s.Inv → step s = .next t → t.Inv

/-- The invariant holds after reset. -/
def Obligations.ResetMeetsInvariant : Prop := State.reset.Inv

/-- 10_state R38, which the spec marks as derived: the parameters are no state of the engine, so no step
changes them. -/
def Obligations.ParametersNeverChange : Prop :=
  ∀ s t : State, step s = .next t → t.config = s.config

/-- 10_state R24 and R27 over all events: VALID changes only by VALIDATE (opcode 0x02), RESULT only by
COMPUTE (opcode 0x01), or by reset. -/
def Obligations.OnlyTheirCommandsWriteValidAndResult : Prop :=
  ∀ (e : Event) (s t : State), deliver e s = .next t →
    (t.valid ≠ s.valid → e = .reset ∨ e = .transaction (command 0x02#8)) ∧
    (t.result ≠ s.result → e = .reset ∨ e = .transaction (command 0x01#8))

/-- 10_state R26 and section 5 over all events: LEN changes only by a RegWrite to LEN, ENCODE (opcode 0x03)
or reset; a message register only by a RegWrite to a message register, DECODE (opcode 0x04) or reset. -/
def Obligations.WritersOfLenAndMessageRegisters : Prop :=
  ∀ (e : Event) (s t : State), deliver e s = .next t →
    (t.len ≠ s.len →
      e = .reset ∨ e = .transaction (command 0x03#8) ∨ ∃ v, e = .transaction (.regWrite .len v)) ∧
    (t.message ≠ s.message →
      e = .reset ∨ e = .transaction (command 0x04#8) ∨
        ∃ r v, r.isMessage = true ∧ e = .transaction (.regWrite r v))

/-- 10_state R34 and 70_reset R162 over all events: a byte of BUF, written or not, keeps its value but for a
BufWrite at its offset, ENCODE (for offsets below 12) and reset. -/
def Obligations.WritersOfBufferBytes : Prop :=
  ∀ (e : Event) (s t : State) (a : Nat), deliver e s = .next t → t.bufByte a ≠ s.bufByte a →
    e = .reset ∨ (e = .transaction (command 0x03#8) ∧ a < 12) ∨ ∃ b, e = .transaction (.bufWrite a b)

/-- 00_scope R6 with HAS_SERDES = false: the message registers do not exist, so whatever the model's six
fields hold, a transaction answers the same and does the same to everything else. -/
def Obligations.AbsentUnitHidesMessageRegisters : Prop :=
  ∀ (t : Transaction) (s u : State) (m : Message), s.config.hasSerdes = false →
    perform t s = .next u → perform t (s.setMessage m) = .next (u.setMessage m)

/-! ### The two pseudo-commands and what the checksum detects -/

/-- 30_encoding R79, which the spec marks as derived: SEAL reads the checksum of the message from RESULT, and
after it BUF holds the wire bytes with that checksum, LEN is 12, MCSUM and RESULT are the checksum, and
everything else (VALID, the other five message registers, BUF from offset 12 on) is as before. -/
def Obligations.SealStoresTheChecksum : Prop :=
  ∀ s : State, s.SerdesReady →
    ∃ t, runListing sealOpen s = .next t ∧
      t.response = some (.value 16 s.message.checksumOf) ∧
      ∃ u, runListing (sealClose s.message.checksumOf) t = .next u ∧
        u = { s with
          mcsum := s.message.checksumOf
          result := s.message.checksumOf
          len := 12#16
          buf := u.buf
          response := some .done } ∧
        u.wireBytes = encodeMessage s.message.sealed ∧
        ∀ a, 12 ≤ a → u.bufByte a = s.bufByte a

/-- 30_encoding R80, which the spec marks as derived: after CHECK the message registers hold the message in
BUF, bit 0 of the STATUS value read is its validity, ERR reads 0, and BUF, LEN and RESULT are as before. -/
def Obligations.CheckReportsValidity : Prop :=
  ∀ s : State, s.SerdesReady → 12 ≤ s.len.toNat →
    let m := decodeMessage s.wireBytes
    let ok := decide (m.checksumOf = m.checksum)
    runListing checkLines s = .next { s.setMessage m with
      valid := ok
      response := some (.value 8 (statusByte none ok)) }

/-- 40_checksum R105, which the spec marks as derived: a message whose stored checksum is the one computed
over it with a zero field is valid. -/
def Obligations.SealedMessageValidates : Prop :=
  ∀ s : State, s.err = none → s.config.hasSerdes = true → s.mcsum = s.message.checksumOf →
    exec .validate s = .next { s with valid := true }

/-- 40_checksum R104's consequence, which the spec marks as derived: COMPUTE over the 12 wire bytes of a
valid message, checksum left in place, gives RESULT = 0x0000. -/
def Obligations.ComputeOverSealedMessageGivesZero : Prop :=
  ∀ (s : State) (m : Message), s.err = none → s.config.wf → s.len = 12#16 →
    s.wireBytes = encodeMessage m.sealed →
    exec .compute s = .next { s with result := 0x0000#16 }

/-- 40_checksum R106, which the spec marks as derived: if DECODE and VALIDATE find the message in BUF valid,
then after one of its twelve bytes is changed to a different value they find it not valid. -/
def Obligations.SingleByteChangeIsCaught : Prop :=
  ∀ (s t : State) (i : Nat) (b : Byte), s.SerdesReady → 12 ≤ s.len.toNat → i < 12 →
    b ≠ s.bufByte i →
    runListing [.command .decode, .command .validate] s = .next t → t.valid = true →
    ∃ u, runListing [.wb i b, .command .decode, .command .validate] s = .next u ∧ u.valid = false

/-- 41_serdes R130, which the spec marks as derived: the sealed requests of sequence numbers 0 and 1 differ
in byte 7 and in the checksum, and agree in every byte outside the checksum and byte 7; the two byte
sequences of the rule. -/
def Obligations.FirstTwoProbesDiffer : Prop :=
  (∀ m : Message,
    let m0 := Message.sealed { m with sequenceNumber := 0#16 }
    let m1 := Message.sealed { m with sequenceNumber := 1#16 }
    m0.checksum ≠ m1.checksum ∧ (encodeMessage m0)[7] ≠ (encodeMessage m1)[7] ∧
    ∀ (i : Nat) (h : i < 12), i ≠ 2 → i ≠ 3 → i ≠ 7 → (encodeMessage m0)[i] = (encodeMessage m1)[i]) ∧
  encodeMessage (Message.sealed ⟨8#8, 0#8, 0#16, 0#16, 0#16, 0x00000539#32⟩) =
    #v[0x08, 0x00, 0xF2, 0xC6, 0x00, 0x00, 0x00, 0x00, 0x00, 0x00, 0x05, 0x39] ∧
  encodeMessage (Message.sealed ⟨8#8, 0#8, 0#16, 0#16, 1#16, 0x00000539#32⟩) =
    #v[0x08, 0x00, 0xF2, 0xC5, 0x00, 0x00, 0x00, 0x01, 0x00, 0x00, 0x05, 0x39]
end

