-- ==== Sys2Proof/Laws/State.lean ====
section
/-! SUPPORT. What each named update of the state does to each field, so that no later proof unfolds one. -/

namespace Sys2Proof.Machine

/-! ### State.respond -/

@[simp] theorem State.respond_config (s : State) (r : Response) : (s.respond r).config = s.config := rfl
@[simp] theorem State.respond_len (s : State) (r : Response) : (s.respond r).len = s.len := rfl
@[simp] theorem State.respond_result (s : State) (r : Response) : (s.respond r).result = s.result := rfl
@[simp] theorem State.respond_valid (s : State) (r : Response) : (s.respond r).valid = s.valid := rfl
@[simp] theorem State.respond_err (s : State) (r : Response) : (s.respond r).err = s.err := rfl
@[simp] theorem State.respond_mtype (s : State) (r : Response) : (s.respond r).mtype = s.mtype := rfl
@[simp] theorem State.respond_mcode (s : State) (r : Response) : (s.respond r).mcode = s.mcode := rfl
@[simp] theorem State.respond_mcsum (s : State) (r : Response) : (s.respond r).mcsum = s.mcsum := rfl
@[simp] theorem State.respond_mident (s : State) (r : Response) : (s.respond r).mident = s.mident := rfl
@[simp] theorem State.respond_mseq (s : State) (r : Response) : (s.respond r).mseq = s.mseq := rfl
@[simp] theorem State.respond_mpayload (s : State) (r : Response) : (s.respond r).mpayload = s.mpayload := rfl
@[simp] theorem State.respond_buf (s : State) (r : Response) : (s.respond r).buf = s.buf := rfl
@[simp] theorem State.respond_pending (s : State) (r : Response) : (s.respond r).pending = s.pending := rfl
@[simp] theorem State.respond_response (s : State) (r : Response) : (s.respond r).response = some r := rfl
@[simp] theorem State.respond_resets (s : State) (r : Response) : (s.respond r).resets = s.resets := rfl
@[simp] theorem State.respond_draws (s : State) (r : Response) : (s.respond r).draws = s.draws := rfl

/-! ### State.respondDraw -/

@[simp] theorem State.respondDraw_config (s : State) (w : Nat) : (s.respondDraw w).config = s.config := rfl
@[simp] theorem State.respondDraw_len (s : State) (w : Nat) : (s.respondDraw w).len = s.len := rfl
@[simp] theorem State.respondDraw_result (s : State) (w : Nat) : (s.respondDraw w).result = s.result := rfl
@[simp] theorem State.respondDraw_valid (s : State) (w : Nat) : (s.respondDraw w).valid = s.valid := rfl
@[simp] theorem State.respondDraw_err (s : State) (w : Nat) : (s.respondDraw w).err = s.err := rfl
@[simp] theorem State.respondDraw_mtype (s : State) (w : Nat) : (s.respondDraw w).mtype = s.mtype := rfl
@[simp] theorem State.respondDraw_mcode (s : State) (w : Nat) : (s.respondDraw w).mcode = s.mcode := rfl
@[simp] theorem State.respondDraw_mcsum (s : State) (w : Nat) : (s.respondDraw w).mcsum = s.mcsum := rfl
@[simp] theorem State.respondDraw_mident (s : State) (w : Nat) : (s.respondDraw w).mident = s.mident := rfl
@[simp] theorem State.respondDraw_mseq (s : State) (w : Nat) : (s.respondDraw w).mseq = s.mseq := rfl
@[simp] theorem State.respondDraw_mpayload (s : State) (w : Nat) : (s.respondDraw w).mpayload = s.mpayload := rfl
@[simp] theorem State.respondDraw_buf (s : State) (w : Nat) : (s.respondDraw w).buf = s.buf := rfl
@[simp] theorem State.respondDraw_pending (s : State) (w : Nat) : (s.respondDraw w).pending = s.pending := rfl
@[simp] theorem State.respondDraw_response (s : State) (w : Nat) : (s.respondDraw w).response = some (.value w (Config.readDraw w s.draws)) := rfl
@[simp] theorem State.respondDraw_resets (s : State) (w : Nat) : (s.respondDraw w).resets = s.resets := rfl
@[simp] theorem State.respondDraw_draws (s : State) (w : Nat) : (s.respondDraw w).draws = s.draws + 1 := rfl

/-! ### State.setBufByte -/

@[simp] theorem State.setBufByte_config (s : State) (a : Nat) (b : Byte) : (s.setBufByte a b).config = s.config := rfl
@[simp] theorem State.setBufByte_len (s : State) (a : Nat) (b : Byte) : (s.setBufByte a b).len = s.len := rfl
@[simp] theorem State.setBufByte_result (s : State) (a : Nat) (b : Byte) : (s.setBufByte a b).result = s.result := rfl
@[simp] theorem State.setBufByte_valid (s : State) (a : Nat) (b : Byte) : (s.setBufByte a b).valid = s.valid := rfl
@[simp] theorem State.setBufByte_err (s : State) (a : Nat) (b : Byte) : (s.setBufByte a b).err = s.err := rfl
@[simp] theorem State.setBufByte_mtype (s : State) (a : Nat) (b : Byte) : (s.setBufByte a b).mtype = s.mtype := rfl
@[simp] theorem State.setBufByte_mcode (s : State) (a : Nat) (b : Byte) : (s.setBufByte a b).mcode = s.mcode := rfl
@[simp] theorem State.setBufByte_mcsum (s : State) (a : Nat) (b : Byte) : (s.setBufByte a b).mcsum = s.mcsum := rfl
@[simp] theorem State.setBufByte_mident (s : State) (a : Nat) (b : Byte) : (s.setBufByte a b).mident = s.mident := rfl
@[simp] theorem State.setBufByte_mseq (s : State) (a : Nat) (b : Byte) : (s.setBufByte a b).mseq = s.mseq := rfl
@[simp] theorem State.setBufByte_mpayload (s : State) (a : Nat) (b : Byte) : (s.setBufByte a b).mpayload = s.mpayload := rfl
@[simp] theorem State.setBufByte_buf (s : State) (a : Nat) (b : Byte) : (s.setBufByte a b).buf = Memory.insert s.buf a b := rfl
@[simp] theorem State.setBufByte_pending (s : State) (a : Nat) (b : Byte) : (s.setBufByte a b).pending = s.pending := rfl
@[simp] theorem State.setBufByte_response (s : State) (a : Nat) (b : Byte) : (s.setBufByte a b).response = s.response := rfl
@[simp] theorem State.setBufByte_resets (s : State) (a : Nat) (b : Byte) : (s.setBufByte a b).resets = s.resets := rfl
@[simp] theorem State.setBufByte_draws (s : State) (a : Nat) (b : Byte) : (s.setBufByte a b).draws = s.draws := rfl

/-! ### State.setMessage -/

@[simp] theorem State.setMessage_config (s : State) (m : Message) : (s.setMessage m).config = s.config := rfl
@[simp] theorem State.setMessage_len (s : State) (m : Message) : (s.setMessage m).len = s.len := rfl
@[simp] theorem State.setMessage_result (s : State) (m : Message) : (s.setMessage m).result = s.result := rfl
@[simp] theorem State.setMessage_valid (s : State) (m : Message) : (s.setMessage m).valid = s.valid := rfl
@[simp] theorem State.setMessage_err (s : State) (m : Message) : (s.setMessage m).err = s.err := rfl
@[simp] theorem State.setMessage_mtype (s : State) (m : Message) : (s.setMessage m).mtype = m.type := rfl
@[simp] theorem State.setMessage_mcode (s : State) (m : Message) : (s.setMessage m).mcode = m.code := rfl
@[simp] theorem State.setMessage_mcsum (s : State) (m : Message) : (s.setMessage m).mcsum = m.checksum := rfl
@[simp] theorem State.setMessage_mident (s : State) (m : Message) : (s.setMessage m).mident = m.identifier := rfl
@[simp] theorem State.setMessage_mseq (s : State) (m : Message) : (s.setMessage m).mseq = m.sequenceNumber := rfl
@[simp] theorem State.setMessage_mpayload (s : State) (m : Message) : (s.setMessage m).mpayload = m.payload := rfl
@[simp] theorem State.setMessage_buf (s : State) (m : Message) : (s.setMessage m).buf = s.buf := rfl
@[simp] theorem State.setMessage_pending (s : State) (m : Message) : (s.setMessage m).pending = s.pending := rfl
@[simp] theorem State.setMessage_response (s : State) (m : Message) : (s.setMessage m).response = s.response := rfl
@[simp] theorem State.setMessage_resets (s : State) (m : Message) : (s.setMessage m).resets = s.resets := rfl
@[simp] theorem State.setMessage_draws (s : State) (m : Message) : (s.setMessage m).draws = s.draws := rfl

/-! ### State.hardReset -/

@[simp] theorem State.hardReset_config (s : State) : s.hardReset.config = s.config := rfl
@[simp] theorem State.hardReset_len (s : State) : s.hardReset.len = 0#16 := rfl
@[simp] theorem State.hardReset_result (s : State) : s.hardReset.result = 0#16 := rfl
@[simp] theorem State.hardReset_valid (s : State) : s.hardReset.valid = false := rfl
@[simp] theorem State.hardReset_err (s : State) : s.hardReset.err = none := rfl
@[simp] theorem State.hardReset_mtype (s : State) : s.hardReset.mtype = 0#8 := rfl
@[simp] theorem State.hardReset_mcode (s : State) : s.hardReset.mcode = 0#8 := rfl
@[simp] theorem State.hardReset_mcsum (s : State) : s.hardReset.mcsum = 0#16 := rfl
@[simp] theorem State.hardReset_mident (s : State) : s.hardReset.mident = 0#16 := rfl
@[simp] theorem State.hardReset_mseq (s : State) : s.hardReset.mseq = 0#16 := rfl
@[simp] theorem State.hardReset_mpayload (s : State) : s.hardReset.mpayload = 0#32 := rfl
@[simp] theorem State.hardReset_buf (s : State) : s.hardReset.buf = [] := rfl
@[simp] theorem State.hardReset_pending (s : State) : s.hardReset.pending = s.pending := rfl
@[simp] theorem State.hardReset_response (s : State) : s.hardReset.response = none := rfl
@[simp] theorem State.hardReset_resets (s : State) : s.hardReset.resets = s.resets + 1 := rfl
@[simp] theorem State.hardReset_draws (s : State) : s.hardReset.draws = s.draws := rfl

/-! ### State.raise: only ERR, and only when it is 0 (60_exceptions R141) -/

@[simp] theorem State.raise_err (s : State) (f : EngineFault) : (s.raise f).err = some (s.err.getD f) := by
  cases h : s.err <;> simp [State.raise, h]
@[simp] theorem State.raise_config (s : State) (f : EngineFault) : (s.raise f).config = s.config := by
  cases h : s.err <;> simp [State.raise, h]
@[simp] theorem State.raise_len (s : State) (f : EngineFault) : (s.raise f).len = s.len := by
  cases h : s.err <;> simp [State.raise, h]
@[simp] theorem State.raise_result (s : State) (f : EngineFault) : (s.raise f).result = s.result := by
  cases h : s.err <;> simp [State.raise, h]
@[simp] theorem State.raise_valid (s : State) (f : EngineFault) : (s.raise f).valid = s.valid := by
  cases h : s.err <;> simp [State.raise, h]
@[simp] theorem State.raise_mtype (s : State) (f : EngineFault) : (s.raise f).mtype = s.mtype := by
  cases h : s.err <;> simp [State.raise, h]
@[simp] theorem State.raise_mcode (s : State) (f : EngineFault) : (s.raise f).mcode = s.mcode := by
  cases h : s.err <;> simp [State.raise, h]
@[simp] theorem State.raise_mcsum (s : State) (f : EngineFault) : (s.raise f).mcsum = s.mcsum := by
  cases h : s.err <;> simp [State.raise, h]
@[simp] theorem State.raise_mident (s : State) (f : EngineFault) : (s.raise f).mident = s.mident := by
  cases h : s.err <;> simp [State.raise, h]
@[simp] theorem State.raise_mseq (s : State) (f : EngineFault) : (s.raise f).mseq = s.mseq := by
  cases h : s.err <;> simp [State.raise, h]
@[simp] theorem State.raise_mpayload (s : State) (f : EngineFault) : (s.raise f).mpayload = s.mpayload := by
  cases h : s.err <;> simp [State.raise, h]
@[simp] theorem State.raise_buf (s : State) (f : EngineFault) : (s.raise f).buf = s.buf := by
  cases h : s.err <;> simp [State.raise, h]
@[simp] theorem State.raise_pending (s : State) (f : EngineFault) : (s.raise f).pending = s.pending := by
  cases h : s.err <;> simp [State.raise, h]
@[simp] theorem State.raise_response (s : State) (f : EngineFault) : (s.raise f).response = s.response := by
  cases h : s.err <;> simp [State.raise, h]
@[simp] theorem State.raise_resets (s : State) (f : EngineFault) : (s.raise f).resets = s.resets := by
  cases h : s.err <;> simp [State.raise, h]
@[simp] theorem State.raise_draws (s : State) (f : EngineFault) : (s.raise f).draws = s.draws := by
  cases h : s.err <;> simp [State.raise, h]

/-- A first fault is recorded and nothing else changes. -/
theorem State.raise_of_none (s : State) (f : EngineFault) (h : s.err = none) :
    s.raise f = { s with err := some f } := by
  simp [State.raise, h]

/-- A later fault changes nothing at all. -/
theorem State.raise_of_some (s : State) (f g : EngineFault) (h : s.err = some g) : s.raise f = s := by
  simp [State.raise, h]

/-! ### The message registers as one message -/

@[simp] theorem State.message_setMessage (s : State) (m : Message) : (s.setMessage m).message = m := rfl

@[simp] theorem State.setMessage_message (s : State) : s.setMessage s.message = s := rfl

/-! ### The operations that depend on the parameters alone see through the other updates -/

@[simp] theorem State.message_respond (s : State) (r : Response) : (s.respond r).message = s.message := rfl

@[simp] theorem State.message_setBufByte (s : State) (a : Nat) (b : Byte) :
    (s.setBufByte a b).message = s.message := rfl

/-- `bufByte` depends on BUF and on the reset number only. -/
theorem State.bufByte_congr {s t : State} (hb : s.buf = t.buf) (hr : s.resets = t.resets) (a : Nat) :
    s.bufByte a = t.bufByte a := by
  simp [State.bufByte, State.unwrittenByte, hb, hr]

end Sys2Proof.Machine
end

