-- ==== Sys2Proof/Laws/Memory.lean ====
section
/-! SUPPORT. The laws of BUF: read after write, and every memory operation keeps the canonical form. -/

namespace Sys2Proof.Machine

@[simp] theorem Memory.lookup_insert_self (m : Memory) (a : Nat) (b : Byte) :
    Memory.lookup (Memory.insert m a b) a = some b := by
  induction m with
  | nil => simp [Memory.insert, Memory.lookup]
  | cons c m ih =>
    obtain ⟨k, v⟩ := c
    by_cases h : a < k
    · simp [Memory.insert, Memory.lookup, h]
    · by_cases h' : a = k
      · simp [Memory.insert, Memory.lookup, h']
      · simp [Memory.insert, Memory.lookup, h, h', Ne.symm h', ih]

theorem Memory.lookup_insert_ne (m : Memory) {a c : Nat} (b : Byte) (hne : c ≠ a) :
    Memory.lookup (Memory.insert m a b) c = Memory.lookup m c := by
  induction m with
  | nil => simp [Memory.insert, Memory.lookup, hne.symm]
  | cons x m ih =>
    obtain ⟨k, v⟩ := x
    by_cases h : a < k
    · simp [Memory.insert, Memory.lookup, h, hne.symm]
    · by_cases h' : a = k
      · subst h'
        simp [Memory.insert, Memory.lookup, hne.symm]
      · simp only [Memory.insert, h, h', if_false, Memory.lookup, ih]

theorem Memory.mem_insert {m : Memory} {a : Nat} {b : Byte} {c : Host.Cell} (h : c ∈ Memory.insert m a b) :
    c = (a, b) ∨ c ∈ m := by
  induction m with
  | nil => simpa [Memory.insert] using h
  | cons x m ih =>
    obtain ⟨k, v⟩ := x
    simp only [Memory.insert] at h
    split at h
    · simpa using h
    · split at h
      · rcases List.mem_cons.1 h with h | h
        · exact .inl h
        · exact .inr (List.mem_cons_of_mem _ h)
      · rcases List.mem_cons.1 h with h | h
        · exact .inr (h ▸ List.mem_cons_self)
        · exact (ih h).imp id (List.mem_cons_of_mem _)

/-- A write keeps the canonical form. -/
theorem Memory.wf_insert {m : Memory} (h : Memory.wf m) (a : Nat) (b : Byte) :
    Memory.wf (Memory.insert m a b) := by
  induction m with
  | nil => simp [Memory.insert, Memory.wf]
  | cons x m ih =>
    obtain ⟨k, v⟩ := x
    obtain ⟨hk, hm⟩ := List.pairwise_cons.1 h
    simp only [Memory.insert]
    split
    · rename_i hlt
      refine List.pairwise_cons.2 ⟨fun c hc => ?_, h⟩
      rcases List.mem_cons.1 hc with hc | hc
      · exact hc ▸ hlt
      · exact lt_trans hlt (hk c hc)
    · split
      · rename_i heq
        exact List.pairwise_cons.2 ⟨fun c hc => heq ▸ hk c hc, hm⟩
      · rename_i hlt hne
        refine List.pairwise_cons.2 ⟨fun c hc => ?_, ih hm⟩
        rcases Memory.mem_insert hc with hc | hc
        · subst hc; exact lt_of_le_of_ne (not_lt.1 hlt) (Ne.symm hne)
        · exact hk c hc

theorem Memory.wf_insertBytes {m : Memory} (h : Memory.wf m) (a : Nat) (bs : List Byte) :
    Memory.wf (Memory.insertBytes m a bs) := by
  induction bs generalizing m a with
  | nil => exact h
  | cons b bs ih => exact ih (Memory.wf_insert h a b) (a + 1)

/-- Where the entries of a wide write lie. -/
theorem Memory.mem_insertBytes {m : Memory} {a : Nat} {bs : List Byte} {c : Host.Cell}
    (h : c ∈ Memory.insertBytes m a bs) : c ∈ m ∨ (a ≤ c.1 ∧ c.1 < a + bs.length) := by
  induction bs generalizing m a with
  | nil => exact .inl h
  | cons b bs ih =>
    rcases ih h with h | h
    · rcases Memory.mem_insert h with rfl | h
      · exact .inr (by simp)
      · exact .inl h
    · exact .inr (by simp; omega)

/-- What a wide write leaves at each offset. -/
theorem Memory.lookup_insertBytes (m : Memory) (a c : Nat) (bs : List Byte) :
    Memory.lookup (Memory.insertBytes m a bs) c =
      if a ≤ c ∧ c < a + bs.length then bs[c - a]? else Memory.lookup m c := by
  induction bs generalizing m a with
  | nil => rw [if_neg (by simp only [List.length_nil]; omega)]; rfl
  | cons b bs ih =>
    rw [Memory.insertBytes, ih]
    rcases lt_trichotomy c a with h | rfl | h
    · rw [if_neg (by omega), if_neg (by omega), Memory.lookup_insert_ne _ _ (by omega)]
    · rw [if_neg (by omega), if_pos (by simp), Memory.lookup_insert_self]; simp
    · by_cases hc : c < a + (b :: bs).length
      · rw [if_pos (by simp at hc; omega), if_pos (by omega)]
        have : c - a = (c - (a + 1)) + 1 := by omega
        rw [this, List.getElem?_cons_succ]
      · rw [if_neg (by simp at hc; omega), if_neg (by omega), Memory.lookup_insert_ne _ _ (by omega)]

/-- A single write seen through `bufByte`. -/
theorem State.bufByte_setBufByte (s : State) (a c : Nat) (b : Byte) :
    (s.setBufByte a b).bufByte c = if c = a then b else s.bufByte c := by
  by_cases h : c = a
  · subst h; simp [State.bufByte]
  · simp [State.bufByte, State.unwrittenByte, Memory.lookup_insert_ne _ b h, h]

/-- A wide write seen through `bufByte`. -/
theorem State.bufByte_insertBytes (s : State) (a c : Nat) (bs : List Byte) :
    ({ s with buf := Memory.insertBytes s.buf a bs } : State).bufByte c =
      if h : a ≤ c ∧ c < a + bs.length then bs[c - a]'(by omega) else s.bufByte c := by
  by_cases h : a ≤ c ∧ c < a + bs.length
  · have hlt : c - a < bs.length := by omega
    simp [State.bufByte, Memory.lookup_insertBytes, h, hlt]
  · simp [State.bufByte, State.unwrittenByte, Memory.lookup_insertBytes, h]

end Sys2Proof.Machine
end

