-- ==== Sys2Proof/Laws/Ops.lean ====
section
/-! SUPPORT. One lemma per shared operation that says everything it can do. -/

namespace Sys2Proof.Machine

/-! ### BUF inside a command -/

/-- `MemRead` inside BUF. -/
theorem State.memRead_inside (s : State) {a n : Nat} (h : a + n ≤ s.config.bufBytes) :
    s.memRead a n = some (Vector.ofFn fun i => s.bufByte (a + i.val)) := by
  simp [State.memRead, h]

/-- A command's read: inside BUF it goes on with the bytes, else the model stops. -/
theorem State.withBytes_eq (s : State) (a n : Nat) (k : Vector Byte n → State) :
    s.withBytes a n k =
      if a + n ≤ s.config.bufBytes then .next (k (Vector.ofFn fun i => s.bufByte (a + i.val)))
      else .fault .outsideBuffer := by
  by_cases h : a + n ≤ s.config.bufBytes <;> simp [State.withBytes, State.memRead, h]

/-- A command's store: inside BUF it goes on with the bytes written, else the model stops. -/
theorem State.storing_eq {n : Nat} (s : State) (a : Nat) (bs : Vector Byte n) (k : State → State) :
    s.storing a bs k =
      if a + n ≤ s.config.bufBytes then
        .next (k { s with buf := Memory.insertBytes s.buf a bs.toList })
      else .fault .outsideBuffer := by
  by_cases h : a + n ≤ s.config.bufBytes <;> simp [State.storing, State.memWrite, h]

/-! ### The guards -/

@[simp] theorem State.unlessFaulted_of_none (s : State) (k : State → Result) (h : s.err = none) :
    s.unlessFaulted k = k s := by
  simp [State.unlessFaulted, h]

@[simp] theorem State.unlessFaulted_of_some (s : State) (k : State → Result) {f : EngineFault}
    (h : s.err = some f) : s.unlessFaulted k = .next s := by
  simp [State.unlessFaulted, h]

/-- If a guarded operation answers `next t`, the engine was faulted and nothing changed, or it was not and
the operation answered it. -/
theorem State.unlessFaulted_next {s t : State} {k : State → Result} (h : s.unlessFaulted k = .next t) :
    (∃ f, s.err = some f ∧ t = s) ∨ (s.err = none ∧ k s = .next t) := by
  cases he : s.err with
  | none => exact .inr ⟨rfl, by simpa [State.unlessFaulted, he] using h⟩
  | some f => exact .inl ⟨f, rfl, by simpa [State.unlessFaulted, he] using h.symm⟩

theorem State.withSerdes_of_true (s : State) (k : State → Result) (h : s.config.hasSerdes = true) :
    s.withSerdes k = k s := by
  simp [State.withSerdes, h]

theorem State.withSerdes_of_false (s : State) (k : State → Result) (h : s.config.hasSerdes = false) :
    s.withSerdes k = .next (s.raise .illegalCommand) := by
  simp [State.withSerdes, h]

/-- If a command of the optional unit answers `next t`, the unit was absent and IllegalCommand was raised,
or it was present and the command answered it. -/
theorem State.withSerdes_next {s t : State} {k : State → Result} (h : s.withSerdes k = .next t) :
    (s.config.hasSerdes = false ∧ t = s.raise .illegalCommand) ∨
      (s.config.hasSerdes = true ∧ k s = .next t) := by
  cases hc : s.config.hasSerdes with
  | false => exact .inl ⟨rfl, by simpa [State.withSerdes, hc] using h.symm⟩
  | true => exact .inr ⟨rfl, by simpa [State.withSerdes, hc] using h⟩

/-! ### Responses -/

@[simp] theorem respondWith_nextState (r : Response) (s : State) :
    respondWith r (.next s) = .next (s.respond r) := rfl

/-- If an answered outcome is `next t`, the outcome was a next state and `t` is it, answered. -/
theorem respondWith_next {r : Response} {o : Result} {t : State} (h : respondWith r o = .next t) :
    ∃ u, o = .next u ∧ t = u.respond r := by
  cases o with
  | next u => exact ⟨u, rfl, by simpa using h.symm⟩
  | fault f => simp [respondWith] at h
  | refused f => simp [respondWith] at h

/-- An illegal read answers no value for an unassigned number and a draw for any other register. -/
theorem State.respondIllegalRead_cases (s : State) (r : Reg) :
    (r.access = .none ∧ s.respondIllegalRead r = s.respond .noValue) ∨
      (r.access ≠ .none ∧ s.respondIllegalRead r = s.respondDraw r.width) := by
  cases h : r.access <;> simp [State.respondIllegalRead, h]

/-! ### Registers -/

/-- A legal register write changes one register and nothing else. -/
theorem State.writeReg?_cases {s t : State} {r : Reg} {v : BitVec r.width} (h : s.writeReg? r v = some t) :
    t = { s with
      len := t.len, mtype := t.mtype, mcode := t.mcode, mcsum := t.mcsum
      mident := t.mident, mseq := t.mseq, mpayload := t.mpayload } ∧ r.access = .readWrite := by
  cases r <;> simp only [State.writeReg?] at h <;> (try split at h) <;> cases h <;> exact ⟨rfl, rfl⟩

/-- A register write of an engine that is not faulted: a command for CMD, else a stored register. -/
@[simp] theorem writeEffect_cmd (c : Byte) (s : State) : writeEffect .cmd c s = runCommand c s := rfl

theorem writeEffect_of_ne_cmd {r : Reg} (h : r ≠ .cmd) (v : BitVec r.width) (s : State) :
    writeEffect r v s = storeReg r v s := by
  cases r <;> first | exact absurd rfl h | rfl

/-- A stored register: written where the write is legal, else BadAccess. -/
theorem storeReg_cases (r : Reg) (v : BitVec r.width) (s : State) :
    (∃ t, s.writeReg? r v = some t ∧ storeReg r v s = .next t) ∨
      (s.writeReg? r v = none ∧ storeReg r v s = .next (s.raise .badAccess)) := by
  cases h : s.writeReg? r v with
  | none => exact .inr ⟨rfl, by simp [storeReg, h]⟩
  | some t => exact .inl ⟨t, rfl, by simp [storeReg, h]⟩

/-! ### Commands and events -/

/-- A command byte runs the command it decodes to, else raises IllegalCommand. -/
theorem runCommand_cases (c : Byte) (s : State) :
    (∃ i, decode s.config c = .ok i ∧ runCommand c s = exec i s) ∨
      (∃ e, decode s.config c = .error e ∧ runCommand c s = .next (s.raise .illegalCommand)) := by
  cases h : decode s.config c with
  | ok i => exact .inl ⟨i, rfl, by simp [runCommand, h]⟩
  | error e => exact .inr ⟨e, rfl, by simp [runCommand, h]⟩

/-- A run of one event more. -/
theorem runEvents_cons_of_next {e : Event} {es : List Event} {s t : State} (h : deliver e s = .next t) :
    runEvents (e :: es) s = runEvents es t := by
  simp [runEvents, h]

@[simp] theorem runEvents_nil (s : State) : runEvents [] s = .next s := rfl

end Sys2Proof.Machine
end

