-- ==== Sys2Proof/Laws/Inversion.lean ====
section
/-! SUPPORT. Said once: everything a command, and everything a transaction, can do when it answers a next
state. -/

namespace Sys2Proof.Machine

/-- The states a command can lead to: the same state of a faulted engine, a recorded fault, or the command's
own effect. -/
inductive ExecNext (i : Instr) (s : State) : State → Prop where
  | frozen (f : EngineFault) (he : s.err = some f) : ExecNext i s s
  | fault (f : EngineFault) (he : s.err = none) : ExecNext i s { s with err := some f }
  | compute (hi : i = .compute) (he : s.err = none) (hl : s.len.toNat ≤ s.config.bufBytes) :
      ExecNext i s { s with
        result := Machine.compute (Vector.ofFn (n := s.len.toNat) fun k => s.bufByte (0 + k.val)).toList }
  | validate (hi : i = .validate) (he : s.err = none) (hs : s.config.hasSerdes = true) :
      ExecNext i s { s with valid := validFlag s.message.checksumOf s.mcsum }
  | encode (hi : i = .encode) (he : s.err = none) (hs : s.config.hasSerdes = true)
      (hb : 12 ≤ s.config.bufBytes) :
      ExecNext i s { s with
        buf := Memory.insertBytes s.buf 0 (encodeMessage s.message).toList, len := 12#16 }
  | decode (hi : i = .decode) (he : s.err = none) (hs : s.config.hasSerdes = true)
      (hb : 12 ≤ s.config.bufBytes) (hl : 12 ≤ s.len.toNat) :
      ExecNext i s (s.setMessage (decodeMessage (Vector.ofFn fun k => s.bufByte (0 + k.val))))

/-- If a command answers `next t`, `t` is one of the states above. -/
theorem exec_next {i : Instr} {s t : State} (h : exec i s = .next t) : ExecNext i s t := by
  cases i with
  | compute =>
    simp only [exec, execCompute] at h
    rcases State.unlessFaulted_next h with ⟨f, he, rfl⟩ | ⟨he, h⟩
    · exact .frozen f he
    by_cases hl : s.config.bufBytes < s.len.toNat
    · rw [if_pos hl, State.raise_of_none _ _ he] at h
      cases h; exact .fault _ he
    · rw [if_neg hl, State.withBytes_eq, if_pos (by omega)] at h
      cases h; exact .compute rfl he (by omega)
  | validate =>
    simp only [exec, execValidate] at h
    rcases State.unlessFaulted_next h with ⟨f, he, rfl⟩ | ⟨he, h⟩
    · exact .frozen f he
    rcases State.withSerdes_next h with ⟨_, rfl⟩ | ⟨hs, h⟩
    · rw [State.raise_of_none _ _ he]; exact .fault _ he
    · cases h; exact .validate rfl he hs
  | encode =>
    simp only [exec, execEncode] at h
    rcases State.unlessFaulted_next h with ⟨f, he, rfl⟩ | ⟨he, h⟩
    · exact .frozen f he
    rcases State.withSerdes_next h with ⟨_, rfl⟩ | ⟨hs, h⟩
    · rw [State.raise_of_none _ _ he]; exact .fault _ he
    rw [State.storing_eq] at h
    split at h
    · rename_i hb
      cases h; exact .encode rfl he hs (by omega)
    · cases h
  | decode =>
    simp only [exec, execDecode] at h
    rcases State.unlessFaulted_next h with ⟨f, he, rfl⟩ | ⟨he, h⟩
    · exact .frozen f he
    rcases State.withSerdes_next h with ⟨_, rfl⟩ | ⟨hs, h⟩
    · rw [State.raise_of_none _ _ he]; exact .fault _ he
    by_cases hl : s.len.toNat < 12
    · rw [if_pos hl, State.raise_of_none _ _ he] at h
      cases h; exact .fault _ he
    · rw [if_neg hl, State.withBytes_eq] at h
      split at h
      · rename_i hb
        cases h; exact .decode rfl he hs (by omega) (by omega)
      · cases h

/-- The states a transaction can lead to: only its response recorded (a legal read, an illegal read of a
faulted engine, a write to a faulted engine), a fault recorded, or the effect of a command, of a register
write or of a byte write, answered. The count of draws never goes back. -/
inductive PerformNext (t : Transaction) (s : State) : State → Prop where
  | quiet (r : Option Response) (d : Nat) (hd : s.draws ≤ d)
      (hw : t.isWrite = true → s.err ≠ none ∧ r = some .done ∧ d = s.draws) :
      PerformNext t s { s with response := r, draws := d }
  | fault (f : EngineFault) (r : Option Response) (d : Nat) (hd : s.draws ≤ d) (he : s.err = none)
      (hw : t.isWrite = true → r = some .done ∧ d = s.draws) :
      PerformNext t s { s with err := some f, response := r, draws := d }
  | command (c : Byte) (i : Instr) (u : State) (ht : t = .regWrite .cmd c) (hd : decode s.config c = .ok i)
      (he : s.err = none) (hx : exec i s = .next u) : PerformNext t s (u.respond .done)
  | register (r : Reg) (v : BitVec r.width) (u : State) (ht : t = .regWrite r v) (hr : r ≠ .cmd)
      (he : s.err = none) (hv : s.writeReg? r v = some u) : PerformNext t s (u.respond .done)
  | byte (a : Nat) (b : Byte) (ht : t = .bufWrite a b) (he : s.err = none) (ha : a < s.config.bufBytes) :
      PerformNext t s ((s.setBufByte a b).respond .done)

/-- An illegal read either changes nothing but the response and the draws, or records a first fault. -/
theorem PerformNext.illegalRead {t : Transaction} {s : State} (ht : t.isWrite = false)
    (g : State → State) (hg : ∀ u, ∃ r d, u.draws ≤ d ∧ g u = { u with response := r, draws := d }) :
    PerformNext t s (g (s.raise .badAccess)) := by
  obtain ⟨r, d, hd, e⟩ := hg (s.raise .badAccess)
  rw [e]
  cases he : s.err with
  | none =>
    rw [State.raise_of_none _ _ he] at hd ⊢
    exact .fault _ r d hd he (by simp [ht])
  | some f =>
    rw [State.raise_of_some _ _ _ he] at hd ⊢
    exact .quiet r d hd (by simp [ht])

theorem State.respondIllegalRead_shape (u : State) (r : Reg) :
    ∃ a d, u.draws ≤ d ∧ u.respondIllegalRead r = { u with response := a, draws := d } := by
  rcases State.respondIllegalRead_cases u r with ⟨_, e⟩ | ⟨_, e⟩
  · exact ⟨_, _, Nat.le_refl _, e⟩
  · exact ⟨_, _, Nat.le_succ _, e⟩

/-- If a transaction answers `next u`, `u` is one of the states above. -/
theorem perform_next {t : Transaction} {s u : State} (h : perform t s = .next u) : PerformNext t s u := by
  cases t with
  | regRead r =>
    simp only [perform, regRead] at h
    split at h <;> cases h
    · exact .quiet _ _ (Nat.le_refl _) (by simp [Transaction.isWrite])
    · exact .illegalRead rfl (fun u => u.respondIllegalRead r) (fun u => u.respondIllegalRead_shape r)
  | bufRead a =>
    simp only [perform, bufRead] at h
    split at h <;> cases h
    · exact .quiet _ _ (Nat.le_refl _) (by simp [Transaction.isWrite])
    · exact .illegalRead rfl (fun u => u.respondDraw 8) (fun u => ⟨_, _, Nat.le_succ _, rfl⟩)
  | bufWrite a b =>
    obtain ⟨v, hv, rfl⟩ := respondWith_next (show respondWith .done _ = _ from h)
    clear h
    rcases State.unlessFaulted_next hv with ⟨f, he, rfl⟩ | ⟨he, h⟩
    · exact .quiet _ _ (Nat.le_refl _) fun _ => ⟨by simp [he], rfl, rfl⟩
    split at h <;> cases h
    · rename_i ha; exact .byte a b rfl he ha
    · rw [State.raise_of_none _ _ he]; exact .fault _ _ s.draws (Nat.le_refl _) he fun _ => ⟨rfl, rfl⟩
  | regWrite r v =>
    obtain ⟨w, hw, rfl⟩ := respondWith_next (show respondWith .done _ = _ from h)
    clear h
    rcases State.unlessFaulted_next hw with ⟨f, he, rfl⟩ | ⟨he, h⟩
    · exact .quiet _ _ (Nat.le_refl _) fun _ => ⟨by simp [he], rfl, rfl⟩
    by_cases hr : r = .cmd
    · subst hr
      rw [writeEffect_cmd] at h
      rcases runCommand_cases v s with ⟨i, hd, e⟩ | ⟨_, _, e⟩
      · exact .command v i w rfl hd he (e ▸ h)
      · cases e.symm.trans h
        rw [State.raise_of_none _ _ he]; exact .fault _ _ s.draws (Nat.le_refl _) he fun _ => ⟨rfl, rfl⟩
    · rw [writeEffect_of_ne_cmd hr] at h
      rcases storeReg_cases r v s with ⟨x, hx, e⟩ | ⟨_, e⟩
      · cases e.symm.trans h; exact .register r v _ rfl hr he hx
      · cases e.symm.trans h
        rw [State.raise_of_none _ _ he]; exact .fault _ _ s.draws (Nat.le_refl _) he fun _ => ⟨rfl, rfl⟩

end Sys2Proof.Machine
end

