-- ==== Sys2Proof/Laws/Pending.lean ====
section
/-! SUPPORT. No event's effect depends on the host's other pending events, nor changes them: this is what
lets a run be taken step by step. -/

namespace Sys2Proof.Machine

/-- The state with other pending events. -/
def State.withPending (s : State) (p : List Event) : State := { s with pending := p }

/-- Apply a function to the next state of an outcome. -/
def mapNext (f : State → State) : Result → Result
  | .next s => .next (f s)
  | .fault r => .fault r
  | .refused r => .refused r

/-- An operation ignores the pending events and leaves them. -/
def IgnoresPending (k : State → Result) : Prop :=
  ∀ (s : State) (p : List Event), k (s.withPending p) = mapNext (fun u => u.withPending p) (k s)

theorem State.raise_withPending (s : State) (f : EngineFault) (p : List Event) :
    (s.withPending p).raise f = (s.raise f).withPending p := by
  cases h : s.err <;> simp [State.raise, State.withPending, h]

theorem ignoresPending_raise (f : EngineFault) : IgnoresPending fun s => .next (s.raise f) := fun s p => by
  simp [mapNext, State.raise_withPending]

theorem IgnoresPending.unlessFaulted {k : State → Result} (h : IgnoresPending k) :
    IgnoresPending fun s => s.unlessFaulted k := fun s p => by
  have e : (s.withPending p).err = s.err := rfl
  cases he : s.err with
  | none => simp [State.unlessFaulted, e, he, h s p]
  | some f => simp [State.unlessFaulted, e, he, mapNext]

theorem IgnoresPending.withSerdes {k : State → Result} (h : IgnoresPending k) :
    IgnoresPending fun s => s.withSerdes k := fun s p => by
  have e : (s.withPending p).config = s.config := rfl
  cases hc : s.config.hasSerdes with
  | true => simp [State.withSerdes, e, hc, h s p]
  | false => simp [State.withSerdes, e, hc, mapNext, State.raise_withPending]

theorem IgnoresPending.respondWith {k : State → Result} (h : IgnoresPending k) (r : Response) :
    IgnoresPending fun s => Machine.respondWith r (k s) := fun s p => by
  simp only [h s p]; cases k s <;> rfl

theorem exec_ignoresPending (i : Instr) : IgnoresPending (exec i) := by
  cases i with
  | compute =>
    refine IgnoresPending.unlessFaulted fun s p => ?_
    have e : (s.withPending p).config = s.config := rfl
    have l : (s.withPending p).len = s.len := rfl
    rw [e, l]
    by_cases hl : s.config.bufBytes < s.len.toNat
    · simp [hl, mapNext, State.raise_withPending]
    · rw [if_neg hl, if_neg hl, State.withBytes_eq, State.withBytes_eq, e]
      split <;> rfl
  | validate => exact .unlessFaulted (.withSerdes fun s p => rfl)
  | encode =>
    refine .unlessFaulted (.withSerdes fun s p => ?_)
    have e : (s.withPending p).config = s.config := rfl
    rw [State.storing_eq, State.storing_eq, e]
    split <;> rfl
  | decode =>
    refine .unlessFaulted (.withSerdes fun s p => ?_)
    have e : (s.withPending p).config = s.config := rfl
    have l : (s.withPending p).len = s.len := rfl
    rw [l]
    by_cases hl : s.len.toNat < 12
    · simp [hl, mapNext, State.raise_withPending]
    · rw [if_neg hl, if_neg hl, State.withBytes_eq, State.withBytes_eq, e]
      split <;> rfl

theorem runCommand_ignoresPending (c : Byte) : IgnoresPending (runCommand c) := fun s p => by
  have e : (s.withPending p).config = s.config := rfl
  simp only [runCommand, e]
  split
  · exact exec_ignoresPending _ s p
  · simp [mapNext, State.raise_withPending]

theorem storeReg_ignoresPending (r : Reg) (v : BitVec r.width) : IgnoresPending (storeReg r v) := fun s p => by
  have e : (s.withPending p).writeReg? r v = (s.writeReg? r v).map fun u => u.withPending p := by
    cases r <;> simp only [State.writeReg?] <;>
      first
      | rfl
      | (have c : (s.withPending p).config = s.config := rfl
         rw [c]; split <;> rfl)
  simp only [storeReg, e]
  cases s.writeReg? r v with
  | none => simp [mapNext, State.raise_withPending]
  | some u => rfl

theorem regRead_ignoresPending (r : Reg) : IgnoresPending (regRead r) := fun s p => by
  have e : (s.withPending p).readReg? r = s.readReg? r := by cases r <;> rfl
  simp only [regRead, e]
  cases s.readReg? r with
  | some v => rfl
  | none =>
    simp only [State.raise_withPending, mapNext]
    rcases State.respondIllegalRead_cases (s.raise .badAccess) r with ⟨h, e⟩ | ⟨h, e⟩ <;> rw [e] <;>
      rcases State.respondIllegalRead_cases ((s.raise .badAccess).withPending p) r with ⟨h', e'⟩ | ⟨h', e'⟩ <;>
      first | contradiction | (rw [e']; rfl)

/-- The effect of an event does not depend on the events behind it, and leaves them as they are. -/
theorem deliver_ignoresPending (e : Event) : IgnoresPending (deliver e) := by
  cases e with
  | reset => exact fun s p => rfl
  | transaction t =>
    cases t with
    | regRead r => exact regRead_ignoresPending r
    | regWrite r v =>
      refine .respondWith (.unlessFaulted ?_) _
      by_cases h : r = .cmd
      · subst h; exact runCommand_ignoresPending v
      · have e : writeEffect r v = storeReg r v := funext fun s => writeEffect_of_ne_cmd h v s
        rw [e]; exact storeReg_ignoresPending r v
    | bufRead a =>
      intro s p
      have e : (s.withPending p).config = s.config := rfl
      simp only [deliver, perform, bufRead, e, State.raise_withPending]
      split <;> rfl
    | bufWrite a b =>
      refine .respondWith (.unlessFaulted fun s p => ?_) _
      have e : (s.withPending p).config = s.config := rfl
      rw [e, State.raise_withPending]
      split <;> rfl

end Sys2Proof.Machine
end

