-- ==== Sys2Proof/Laws/PerInstr.lean ====
section
/-! SUPPORT. A statement about every command as an encoding, one lemma per constructor. -/

namespace Sys2Proof.Laws.TableWord

/-- The 8-bit table word of a command is not zero ("0x00 is illegal on purpose", 30_encoding R74) and
stands for the command. -/
def Statement (i : Instr) : Prop :=
  encode i ≠ 0x00#8 ∧ decodeTableWord 8 (encode i).toNat = some i

theorem compute : Statement .compute := by unfold Statement; decide
theorem validate : Statement .validate := by unfold Statement; decide
theorem encode : Statement .encode := by unfold Statement; decide
theorem decode : Statement .decode := by unfold Statement; decide

end Sys2Proof.Laws.TableWord
end

