-- ==== Sys2Proof/Tests/Slice0.lean ====
section
/-! SUPPORT. Small tests and the witnesses of the statements' hypotheses. Expected values come from
spec/95_test_vectors.md (the vector is named beside each test) and from the encoding table of
spec/30_encoding.md. -/

namespace Sys2Proof.Tests

open Sys2Proof.Machine

/-! ### Well-formedness and decoding -/

/-- The parameters without the optional unit. -/
def plainConfig : Config := { bufBytes := 1024, hasSerdes := false }

/-- The smoke test of the one well-formedness check: without the unit VALIDATE, ENCODE and DECODE are
ill-formed and COMPUTE is not (30_encoding R75). -/
theorem test_wellFormed_needs_unit :
    Instr.wellFormed plainConfig .validate = false ∧ Instr.wellFormed plainConfig .encode = false ∧
    Instr.wellFormed plainConfig .decode = false ∧ Instr.wellFormed plainConfig .compute = true := by decide

/-- A buffer too small or too large for LEN is no legal parameter (00_scope R5). -/
theorem test_config_bounds :
    ¬ Config.wf { bufBytes := 11, hasSerdes := true } ∧ ¬ Config.wf { bufBytes := 65536, hasSerdes := true } ∧
    Config.wf { bufBytes := 12, hasSerdes := true } ∧ Config.wf { bufBytes := 65535, hasSerdes := true } := by
  decide

theorem test_decode_compute : decodeTableWord 8 0b00000001 = some .compute := by decide
theorem test_decode_validate : decodeTableWord 8 0b00000010 = some .validate := by decide
theorem test_decode_encode : decodeTableWord 8 0b00000011 = some .encode := by decide
theorem test_decode_decode : decodeTableWord 8 0b00000100 = some .decode := by decide

/-- Vectors V-X12 to V-X14: 0x00, 0x05 and 0xFF name no command. -/
theorem test_decode_reserved :
    decodeTableWord 8 0x00 = none ∧ decodeTableWord 8 0x05 = none ∧ decodeTableWord 8 0xFF = none := by decide

/-- The two names a byte is rejected by. -/
theorem test_decode_names_reject :
    decode Config.default 0x05#8 = .error .reservedOpcode ∧
    decode plainConfig 0x02#8 = .error .serdesAbsent := ⟨rfl, rfl⟩

/-! ### The pure functions -/

/-- The checksum of vector V-C10 (two carries), V-C11 (odd length with a carry) and V-C3 (the odd byte is the
high one). -/
theorem test_compute_vectors :
    compute [0x00, 0x01, 0xF2, 0x03, 0xF4, 0xF5, 0xF6, 0xF7] = 0x220D#16 ∧
    compute [0x12, 0x34, 0x56, 0x78, 0x9A] = 0xFD52#16 ∧ compute [0x01] = 0xFEFF#16 := by decide

/-- The `fold` examples under Family A. -/
theorem test_fold_vectors : fold 0x1FFFF = 0x0001 ∧ fold 0x2BC5E = 0xBC60 ∧ fold 0xFFFF = 0xFFFF := by decide

/-! ### States -/

/-- Bytes from offset 0 on. -/
def cells (bs : List Byte) : Memory := Memory.insertBytes [] 0 bs

/-- The sealed request of vector V-E1. -/
def wire : List Byte := [0x08, 0x00, 0xF2, 0xC1, 0x00, 0x00, 0x00, 0x05, 0x00, 0x00, 0x05, 0x39]

/-- An engine with the sealed request in BUF and LEN = 12. -/
def loaded : State := { State.reset with len := 12#16, buf := cells wire }

/-- An engine with the request of vector V-V1 in its message registers. -/
def holding : State :=
  { State.reset with mtype := 8#8, mcsum := 0xF2C1#16, mseq := 5#16, mpayload := 0x00000539#32 }

/-- An engine that recorded ShortMessage. -/
def faulted : State := { loaded with err := some .shortMessage }

/-- An engine without the optional unit. -/
def plain : State := { loaded with config := plainConfig }

/-- Does an outcome answer a next state with this property? -/
def nextWith (o : Result) (p : State → Bool) : Bool :=
  match o with
  | .next s => p s
  | .fault _ => false
  | .refused _ => false

/-! ### One step per command, placed by `withFetchWord` -/

/-- Vector V-C25: the checksum field is not zeroed, so a sealed message gives 0x0000. -/
theorem test_compute_sealed :
    nextWith (step ({ loaded with result := 7#16 }.withFetchWord 8 1)) (fun s => s.result == 0x0000#16) := by
  decide

/-- Vector V-C23: LEN = 1025 is LenRange, with RESULT unchanged. -/
theorem test_compute_len_range :
    nextWith (step ({ loaded with len := 1025#16, result := 7#16 }.withFetchWord 8 1))
      (fun s => s.err == some .lenRange && s.result == 7#16) := by decide

/-- Vector V-V1. -/
theorem test_validate_valid : nextWith (step (holding.withFetchWord 8 2)) (fun s => s.valid) := by decide

/-- Vector V-V8: 0xFFFF and 0x0000 are different stored values. -/
theorem test_validate_two_zeros :
    nextWith (step ({ State.reset with
        mtype := 8#8, mident := 0xF7FF#16, mcsum := 0xFFFF#16, valid := true }.withFetchWord 8 2))
      (fun s => !s.valid) := by decide

/-- Vector V-E2: the byte order of every field. -/
theorem test_encode_bytes :
    nextWith (step ({ State.reset with
        mtype := 3#8, mcode := 1#8, mcsum := 0x4C29#16, mident := 0xABCD#16, mseq := 0x0102#16,
        mpayload := 0x01020304#32 }.withFetchWord 8 3))
      (fun s => s.buf == cells [0x03, 0x01, 0x4C, 0x29, 0xAB, 0xCD, 0x01, 0x02, 0x01, 0x02, 0x03, 0x04]) := by
  decide

/-- Vector V-E6: LEN becomes 12 and `BUF[12]` is kept. -/
theorem test_encode_keeps_tail :
    nextWith (step ({ State.reset with len := 100#16, buf := [(12, 0x77#8)] }.withFetchWord 8 3))
      (fun s => s.len == 12#16 && s.bufByte 12 == 0x77#8) := by decide

/-- Vector V-D2. -/
theorem test_decode_fields :
    nextWith (step ({ State.reset with
        len := 12#16
        buf := cells [0x03, 0x01, 0x4C, 0x29, 0xAB, 0xCD, 0x01, 0x02, 0x01, 0x02, 0x03, 0x04] }.withFetchWord 8 4))
      (fun s => s.message == ⟨3#8, 1#8, 0x4C29#16, 0xABCD#16, 0x0102#16, 0x01020304#32⟩) := by decide

/-- Vector V-D4: LEN = 11 is ShortMessage, with the message registers unchanged. -/
theorem test_decode_short :
    nextWith (step ({ loaded with len := 11#16, mseq := 7#16 }.withFetchWord 8 4))
      (fun s => s.err == some .shortMessage && s.mseq == 7#16) := by decide

/-! ### Host transactions -/

/-- Vectors V-X6 and V-X5: the last byte of BUF and the one after it. -/
theorem test_bufWrite_edge :
    nextWith (perform (.bufWrite 1023 0x5A#8) State.reset) (fun s => s.bufByte 1023 == 0x5A#8) ∧
    nextWith (perform (.bufWrite 1024 0x5A#8) State.reset) (fun s => s.err == some .badAccess) := by decide

/-- Vector V-X18: STATUS reads 0x30 after ShortMessage, 0x31 with VALID. -/
theorem test_status_reads_fault :
    nextWith (perform (.regRead .status) faulted) (fun s => s.response == some (.value 8 0x30#8)) ∧
    nextWith (perform (.regRead .status) { faulted with valid := true })
      (fun s => s.response == some (.value 8 0x31#8)) := by decide

/-- Vectors V-X16 and V-X11: a command to a faulted engine changes nothing; an unassigned read has no value. -/
theorem test_faulted_and_unassigned :
    nextWith (perform (command 0x00#8) faulted) (fun s => s.err == some .shortMessage) ∧
    nextWith (perform (.regRead (.unassigned 0)) State.reset)
      (fun s => s.err == some .badAccess && s.response == some .noValue) := by decide

/-- Vector V-X19: only reset clears the fault. -/
theorem test_reset_clears : nextWith (deliver .reset faulted) (fun s => s.err == none && s.len == 0#16) := by
  decide

/-- 00_scope section 6: the model stops only where BUF_BYTES is not a legal parameter. -/
theorem test_store_outside_buffer :
    (match exec .encode { State.reset with config := { bufBytes := 11, hasSerdes := true } } with
      | .fault r => r == .outsideBuffer
      | .next _ => false
      | .refused _ => false) = true := by decide

/-! ### Witnesses: a concrete state and operands for the hypotheses of each statement -/

theorem witness_WordsAreBigEndianPairs : 2 * 1 + 1 < ([0x12, 0x34, 0x56, 0x78] : List Byte).length := by decide

theorem witness_OddByteIsHighByte : ([] : List Byte).length % 2 = 0 ∧ ([1, 2] : List Byte).length % 2 = 0 := by
  decide

theorem witness_WideAccumulatorFoldsToSameSum : 0xFFFF < 0x10000 ∧ ¬ 0xFFFF < 0xFFFF := by decide

theorem witness_ChecksumClosedForm : ocSum [0xFFFF#16] ≠ 0x0000#16 := by decide

theorem witness_WordOrderDoesNotMatter :
    [0x0001#16, 0x0002#16].Perm [0x0002#16, 0x0001#16] ∧ (0xFFFF#16 : Half) ≠ 0x0000#16 := by decide

theorem witness_SealedSequenceSumsToZero :
    ([0x00, 0x01, 0x00, 0x00, 0x05] : List Byte)[2 * 1]? = some 0x00#8 ∧
    ([0x00, 0x01, 0x00, 0x00, 0x05] : List Byte)[2 * 1 + 1]? = some 0x00#8 := by decide

theorem witness_ZeroPaddingKeepsChecksum : ([0x12, 0x34] : List Byte).length % 2 = 0 := by decide

theorem witness_ZeroAndAllOnesWordsLookAlike : ∃ w ∈ [0x0800#16] ++ [], w ≠ 0x0000#16 :=
  ⟨0x0800#16, by simp, by decide⟩

/-- The first unassigned number stands right above the last message register. -/
theorem witness_RegisterMapMatchesAccessColumn :
    Reg.ofNumber 0xA#4 = .unassigned 0 ∧ Reg.ofNumber 0x9#4 = .mpayload ∧ Reg.isMessage .mseq = true ∧ loaded.config.hasSerdes = true ∧ Reg.access .mseq = .readWrite := by decide

/-- LEN = BUF_BYTES, LEN = BUF_BYTES + 1 and LEN = 0. -/
theorem witness_ComputeStoresChecksum :
    loaded.err = none ∧
    ({ loaded with len := 1024#16 } : State).len.toNat ≤ loaded.config.bufBytes ∧
    loaded.config.bufBytes < ({ loaded with len := 1025#16 } : State).len.toNat ∧
    State.reset.len = 0x0000#16 ∧ State.reset.err = none := by decide

theorem witness_OversizedLenRaisesLenRange :
    ({ loaded with len := 1025#16 } : State).SerdesReady ∧
    loaded.config.bufBytes < ({ loaded with len := 1025#16 } : State).len.toNat ∧
    ({ loaded with len := 1024#16 } : State).len.toNat = loaded.config.bufBytes := by decide

theorem witness_OversizedLenStopsNoOtherCommand :
    ({ loaded with len := 1025#16 } : State).SerdesReady ∧
    loaded.config.bufBytes < ({ loaded with len := 1025#16 } : State).len.toNat ∧
    (Instr.validate ≠ .compute ∧ Instr.encode ≠ .compute) := by decide

theorem witness_ComputeReadsOnlyThePrefix :
    let s : State := { loaded with len := 1#16, buf := [(0, 8#8), (1, 1#8)] }
    let t : State := { loaded with len := 1#16, buf := [(0, 8#8), (1, 2#8)] }
    s.err = none ∧ t.err = none ∧ s.len = t.len ∧ s.len.toNat ≤ s.config.bufBytes ∧
    t.len.toNat ≤ t.config.bufBytes ∧ (∀ a, a < s.len.toNat → s.bufByte a = t.bufByte a) ∧ s ≠ t := by decide

theorem witness_ValidateSetsValidOnly :
    holding.err = none ∧ holding.config.hasSerdes = true := by decide

theorem witness_AbsentUnitCommandsAreIllegal :
    plain.err = none ∧ plain.config.hasSerdes = false ∧ Instr.validate ≠ .compute ∧
    Instr.encode ≠ .compute ∧ Instr.decode ≠ .compute := by decide

theorem witness_ValidMeansWordSumMatches :
    holding.err = none ∧ holding.config.hasSerdes = true ∧ State.reset.err = none ∧
    State.reset.message.total = 0 ∧ holding.message.total ≠ 0 := by decide

/-- The smallest legal buffer. -/
theorem witness_EncodeWritesWireBytesAndLen :
    ({ holding with config := { bufBytes := 12, hasSerdes := true } } : State).SerdesReady := by decide

/-- LEN = 12 and LEN = 11. -/
theorem witness_DecodeFillsMessageRegisters :
    loaded.err = none ∧ loaded.config.wf ∧ loaded.config.hasSerdes = true ∧ 12 ≤ loaded.len.toNat ∧
    ({ loaded with len := 11#16 } : State).len.toNat < 12 := by decide

theorem witness_EncodeAndDecodeUndoEachOther : loaded.SerdesReady ∧ 12 ≤ loaded.len.toNat := by decide

theorem witness_RegReadReturnsRegister :
    loaded.config.hasSerdes = true ∧ Reg.isMessage .mpayload = true ∧ plain.config.hasSerdes = false := by
  decide

/-- An absent message register, the first offset outside BUF, and a delivered event. -/
theorem witness_IllegalReadsAnswerFreshDraws :
    (Reg.isMessage .mpayload = true ∧ plain.config.hasSerdes = false) ∧ loaded.config.bufBytes ≤ 1024 ∧
    ∃ t, deliver (.transaction (.regRead .cmd)) loaded = .next t :=
  ⟨by decide, by decide, _, rfl⟩

theorem witness_StatusByteFields : loaded.err = none := by decide

theorem witness_RegWriteStoresOneRegister :
    loaded.err = none ∧ loaded.config.hasSerdes = true ∧
    decode loaded.config 0x04#8 = .ok .decode ∧ decode loaded.config 0x05#8 = .error .reservedOpcode ∧
    Reg.access (.unassigned 5) = .none ∧ plain.err = none ∧ Reg.isMessage .mtype = true ∧
    plain.config.hasSerdes = false ∧ faulted.err = some .shortMessage :=
  ⟨rfl, rfl, rfl, rfl, rfl, rfl, rfl, rfl, rfl⟩

theorem witness_BufReadReturnsByte : 1023 < loaded.config.bufBytes ∧ loaded.config.bufBytes ≤ 1024 := by decide

theorem witness_BufWriteStoresOneByte :
    loaded.err = none ∧ 1023 < loaded.config.bufBytes ∧ loaded.config.bufBytes ≤ 1024 ∧
    faulted.err = some .shortMessage := by decide

theorem witness_IllegalAccessesRaiseBadAccess :
    loaded.err = none ∧ loaded.config.wf ∧ loaded.config.hasSerdes = true ∧
    Reg.access (.unassigned 0) = .none ∧ loaded.config.bufBytes ≤ 1024 ∧
    plain.err = none ∧ plain.config.wf ∧ Reg.isMessage .mtype = true ∧ plain.config.hasSerdes = false := by
  decide

theorem witness_IllegalOpcodesRaiseIllegalCommand :
    loaded.err = none ∧ loaded.config.hasSerdes = true ∧ (0x05#8 ≤ 0x05#8 ∧ 0x05#8 ≤ 0xFF#8) ∧
    plain.err = none ∧ plain.config.hasSerdes = false ∧ 0x02#8 ≤ 0x02#8 ∧ 0x04#8 ≤ 0x04#8 := by decide

theorem witness_ReadAfterWriteReturnsTheValue :
    loaded.err = none ∧ (loaded.writeReg? .mpayload 1#32).isSome = true ∧ 1023 < loaded.config.bufBytes := by
  decide

theorem witness_WritesAndCommandsAreIdempotent :
    loaded.Inv ∧ Transaction.isWrite (command 0x04#8) = true ∧ ∃ t, perform (command 0x04#8) loaded = .next t :=
  ⟨by decide, rfl, _, rfl⟩

theorem witness_FaultedEngineIsFrozen :
    faulted.err = some .shortMessage ∧ Transaction.isWrite (.bufWrite 0 1#8) = true ∧
    faulted.readReg? .len = some 12#16 ∧ 1023 < faulted.config.bufBytes ∧
    faulted.readReg? .cmd = none ∧ faulted.config.bufBytes ≤ 1024 := by decide

/-- A first fault, and a transaction that would raise another one in a faulted engine. -/
theorem witness_FaultsArePrecise :
    (loaded.err = none ∧ ∃ u, perform (.bufWrite 1024 0#8) loaded = .next u ∧ u.err = some .badAccess) ∧
    (faulted.err = some .shortMessage ∧ ∃ u, perform (.regRead .cmd) faulted = .next u) :=
  ⟨⟨rfl, _, rfl, rfl⟩, rfl, _, rfl⟩

theorem witness_OnlyResetLeavesTheFaultedState : faulted.err = some .shortMessage := by decide

theorem witness_StepRunsDecodedInstruction :
    let s : State := { loaded with pending := [.transaction (command 0x01#8), .reset] }
    s.pending = .transaction (command 0x01#8) :: [.reset] ∧ decode s.config 0x01#8 = .ok .compute :=
  ⟨rfl, rfl⟩

theorem witness_StepDeliversOldestEvent :
    ({ loaded with pending := [.reset] } : State).pending = .reset :: [] ∧ loaded.pending = [] ∧
    Instr.wellFormed loaded.config .decode = true := by decide

theorem witness_RunIsStepByStep : loaded.pending = [] := by decide

theorem witness_EveryStepCompletes : loaded.config.wf ∧ ({ plain with config := ⟨12, false⟩ } : State).config.wf := by
  decide

theorem witness_StepKeepsInvariant :
    ({ loaded with pending := [.transaction (.bufWrite 1023 1#8)] } : State).Inv ∧
    ∃ t, step { loaded with pending := [.transaction (.bufWrite 1023 1#8)] } = .next t :=
  ⟨by decide, _, rfl⟩

theorem witness_ParametersNeverChange : ∃ t, step { faulted with pending := [.reset] } = .next t := ⟨_, rfl⟩

/-- VALIDATE changes VALID, COMPUTE changes RESULT. -/
theorem witness_OnlyTheirCommandsWriteValidAndResult :
    (∃ t, deliver (.transaction (command 0x02#8)) holding = .next t ∧ t.valid ≠ holding.valid) ∧
    ∃ t, deliver (.transaction (command 0x01#8)) { loaded with len := 0#16 } = .next t ∧
      t.result ≠ loaded.result :=
  ⟨⟨_, rfl, by decide⟩, _, rfl, by decide⟩

/-- ENCODE changes LEN, DECODE changes the message registers. -/
theorem witness_WritersOfLenAndMessageRegisters :
    (∃ t, deliver (.transaction (command 0x03#8)) holding = .next t ∧ t.len ≠ holding.len) ∧
    ∃ t, deliver (.transaction (command 0x04#8)) loaded = .next t ∧ t.message ≠ loaded.message :=
  ⟨⟨_, rfl, by decide⟩, _, rfl, by decide⟩

theorem witness_WritersOfBufferBytes :
    ∃ t, deliver (.transaction (.bufWrite 11 0x38#8)) loaded = .next t ∧ t.bufByte 11 ≠ loaded.bufByte 11 :=
  ⟨_, rfl, by decide⟩

theorem witness_AbsentUnitHidesMessageRegisters :
    plain.config.hasSerdes = false ∧ ∃ u, perform (command 0x01#8) plain = .next u := ⟨rfl, _, rfl⟩

theorem witness_SealStoresTheChecksum : holding.SerdesReady := by decide

theorem witness_CheckReportsValidity : loaded.SerdesReady ∧ 12 ≤ loaded.len.toNat := by decide

theorem witness_SealedMessageValidates :
    holding.err = none ∧ holding.config.hasSerdes = true ∧ holding.mcsum = holding.message.checksumOf := by decide

theorem witness_ComputeOverSealedMessageGivesZero :
    loaded.err = none ∧ loaded.config.wf ∧ loaded.len = 12#16 ∧
    loaded.wireBytes = encodeMessage (Message.sealed ⟨8#8, 0#8, 0#16, 0#16, 5#16, 0x00000539#32⟩) := by decide

theorem witness_SingleByteChangeIsCaught :
    loaded.SerdesReady ∧ 12 ≤ loaded.len.toNat ∧ 11 < 12 ∧ 0x38#8 ≠ loaded.bufByte 11 ∧
    ∃ t, runListing [.command .decode, .command .validate] loaded = .next t ∧ t.valid = true :=
  ⟨by decide, by decide, by decide, by decide, _, rfl, by decide⟩

end Sys2Proof.Tests
end

section
/-! SUPPORT. The STATUS byte as a number, what a legal read and an illegal write of a register answer, and a
byte of BUF that nothing has written. -/

namespace Sys2Proof.Machine

/-! ### STATUS -/

/-- The codes 5 to 15 never occur (10_state R23). -/
theorem errCode_toNat_le (e : Option EngineFault) : (errCode e).toNat ≤ 4 := by
  cases e with
  | none => decide
  | some f => cases f <;> decide

/-- The fields of STATUS do not overlap: ERR is the high four bits, VALID the lowest bit. -/
theorem statusByte_toNat (e : Option EngineFault) (v : Bool) :
    (statusByte e v).toNat = 16 * (errCode e).toNat + v.toNat := by
  have hv : (BitVec.ofBool v).toNat < 2 ^ 1 := (BitVec.ofBool v).isLt
  have hz : (0#3).toNat < 2 ^ 3 := (0#3).isLt
  rw [statusByte, BitVec.toNat_append, BitVec.toNat_append, ← Nat.shiftLeft_add_eq_or_of_lt hz,
    ← Nat.shiftLeft_add_eq_or_of_lt hv, Nat.shiftLeft_eq, Nat.shiftLeft_eq, BitVec.toNat_ofBool]
  simp only [BitVec.toNat_ofNat]
  omega

/-! ### Register transactions -/

/-- A legal read answers the register's value and changes nothing else (20_memory R51). -/
theorem perform_regRead_of_some {s : State} {r : Reg} {v : BitVec r.width} (h : s.readReg? r = some v) :
    perform (.regRead r) s = .next { s with response := some (.value r.width v) } := by
  simp only [perform, regRead, h]
  rfl

/-- In an engine that is not faulted an illegal write of a register other than CMD raises BadAccess and
changes nothing else (20_memory R52). -/
theorem perform_regWrite_of_none {s : State} {r : Reg} {v : BitVec r.width} (he : s.err = none)
    (hr : r ≠ .cmd) (h : s.writeReg? r v = none) :
    perform (.regWrite r v) s = .next { s with err := some .badAccess, response := some .done } := by
  have hstore : storeReg r v s = .next (s.raise .badAccess) := by simp only [storeReg, h]
  rw [perform, regWrite, State.unlessFaulted_of_none _ _ he, writeEffect_of_ne_cmd hr, hstore,
    State.raise_of_none _ _ he, respondWith_nextState]
  rfl

/-! ### BUF -/

/-- With no byte written, every byte of BUF is the free value of the last reset (10_state R34). -/
theorem State.bufByte_of_buf_nil {s : State} (h : s.buf = []) (a : Nat) :
    s.bufByte a = Config.bufDraw s.resets a := by
  simp [State.bufByte, State.unwrittenByte, h, Memory.lookup]

end Sys2Proof.Machine
end

section
/-! PROOFS. The statements about the architectural state (10_state sections 2 and 9). -/

namespace Sys2Proof.Machine

/-- Settles O28: the byte by its fields, the read as a legal read, the write as an illegal one. -/
theorem statusByteFields : Obligations.StatusByteFields := by
  unfold Obligations.StatusByteFields
  refine ⟨fun e v => ⟨statusByte_toNat e v, errCode_toNat_le e⟩, rfl, rfl, rfl, rfl, rfl, fun s => ⟨?_, ?_⟩⟩
  · exact perform_regRead_of_some rfl
  · intro v he
    exact perform_regWrite_of_none he (by decide) rfl

/-- Settles O39: the registers are fields of `State.reset`, and BUF is empty there. -/
theorem stateAfterReset : Obligations.StateAfterReset := by
  unfold Obligations.StateAfterReset
  exact ⟨rfl, rfl, rfl, rfl, rfl, rfl, rfl, rfl, rfl, rfl, rfl, State.bufByte_of_buf_nil rfl⟩

end Sys2Proof.Machine
end

section
/-! SUPPORT. What each host transaction does: a legal and an illegal access of a register and of BUF, a command,
and a write to a faulted engine (20_memory R51 to R54, 60_exceptions R146, R147). -/

namespace Sys2Proof.Machine

/-- Raising a fault writes ERR only, and keeps a fault that is already there (60_exceptions R141). -/
theorem State.raise_eq (s : State) (f : EngineFault) : s.raise f = { s with err := some (s.err.getD f) } := by
  cases he : s.err with
  | none => exact State.raise_of_none s f he
  | some g =>
    rw [State.raise_of_some s f g he, Option.getD_some, ← he]

/-! ### Which register accesses are illegal -/

/-- A message register without the unit cannot be read. -/
theorem State.readReg?_of_absent {s : State} {r : Reg} (hr : r.isMessage = true)
    (hs : s.config.hasSerdes = false) : s.readReg? r = none := by
  cases r <;> simp [Reg.isMessage, State.readReg?, hs] at hr ⊢

/-- A message register without the unit cannot be written. -/
theorem State.writeReg?_of_absent {s : State} {r : Reg} (hr : r.isMessage = true)
    (hs : s.config.hasSerdes = false) (v : BitVec r.width) : s.writeReg? r v = none := by
  cases r <;> simp [Reg.isMessage, State.writeReg?, hs] at hr ⊢

/-- Only a register with access readWrite can be written. -/
theorem State.writeReg?_of_access_ne (s : State) {r : Reg} (hr : r.access ≠ .readWrite) (v : BitVec r.width) :
    s.writeReg? r v = none :=
  Option.eq_none_iff_forall_ne_some.2 fun _ ht => hr (State.writeReg?_cases ht).2

/-! ### RegRead -/

/-- An illegal read raises BadAccess and is answered as an illegal read. -/
theorem perform_regRead_of_none {s : State} {r : Reg} (h : s.readReg? r = none) :
    perform (.regRead r) s = .next ((s.raise .badAccess).respondIllegalRead r) := by
  simp only [perform, regRead, h]

/-- An illegal read of a number with a register raises BadAccess and answers a draw of the register's width. -/
theorem perform_regRead_draw {s : State} {r : Reg} (h : s.readReg? r = none) (ha : r.access ≠ .none) :
    perform (.regRead r) s = .next { s with
      err := some (s.err.getD .badAccess)
      response := some (.value r.width (Config.readDraw r.width s.draws))
      draws := s.draws + 1 } := by
  obtain ⟨hn, _⟩ | ⟨_, hdraw⟩ := (s.raise .badAccess).respondIllegalRead_cases r
  · exact absurd hn ha
  · rw [perform_regRead_of_none h, hdraw, State.raise_eq]
    rfl

/-- A read of an unassigned number raises BadAccess and answers no value. -/
theorem perform_regRead_unassigned (s : State) (k : Fin 6) :
    perform (.regRead (.unassigned k)) s = .next { s with
      err := some (s.err.getD .badAccess)
      response := some .noValue } := by
  rw [perform_regRead_of_none rfl, State.raise_eq]
  rfl

/-! ### RegWrite -/

/-- A write to a faulted engine, a command included, changes nothing (60_exceptions R146). -/
theorem perform_write_of_faulted {t : Transaction} {s : State} {f : EngineFault} (ht : t.isWrite = true)
    (he : s.err = some f) : perform t s = .next { s with response := some .done } := by
  cases t with
  | regRead r => cases ht
  | bufRead a => cases ht
  | regWrite r v =>
    rw [perform, regWrite, State.unlessFaulted_of_some _ _ he, respondWith_nextState]
    rfl
  | bufWrite a b =>
    rw [perform, bufWrite, State.unlessFaulted_of_some _ _ he, respondWith_nextState]
    rfl

/-- In an engine that is not faulted a legal write does what `writeReg?` says, and answers. -/
theorem perform_regWrite_of_some {s t : State} {r : Reg} (hr : r ≠ .cmd) (he : s.err = none)
    (v : BitVec r.width) (h : s.writeReg? r v = some t) :
    perform (.regWrite r v) s = .next { t with response := some .done } := by
  have hstore : storeReg r v s = .next t := by simp only [storeReg, h]
  rw [perform, regWrite, State.unlessFaulted_of_none _ _ he, writeEffect_of_ne_cmd hr, hstore,
    respondWith_nextState]
  rfl

/-- In an engine that is not faulted a write to CMD runs the command byte (10_state R22). -/
theorem perform_command_eq {s : State} (he : s.err = none) (c : Byte) :
    perform (command c) s = respondWith .done (runCommand c s) := by
  rw [perform, regWrite, State.unlessFaulted_of_none _ _ he, writeEffect_cmd]

/-- A command byte that decodes is executed. -/
theorem perform_command_of_ok {s : State} (he : s.err = none) {c : Byte} {i : Instr}
    (hd : decode s.config c = .ok i) : perform (command c) s = respondWith .done (exec i s) := by
  rw [perform_command_eq he]
  simp only [runCommand, hd]

/-- A command byte that does not decode raises IllegalCommand (60_exceptions R142). -/
theorem perform_command_of_error {s : State} (he : s.err = none) {c : Byte} {e : DecodeReject}
    (hd : decode s.config c = .error e) :
    perform (command c) s = .next { s with err := some .illegalCommand, response := some .done } := by
  rw [perform_command_eq he]
  simp only [runCommand, hd, State.raise_of_none _ _ he]
  rfl

/-! ### BufRead and BufWrite -/

/-- A read inside BUF answers the byte and changes nothing else. -/
theorem perform_bufRead_inside {s : State} {a : Nat} (h : a < s.config.bufBytes) :
    perform (.bufRead a) s = .next { s with response := some (.value 8 (s.bufByte a)) } := by
  rw [perform, bufRead, if_pos h]
  rfl

/-- A read outside BUF raises BadAccess and answers a draw. -/
theorem perform_bufRead_outside {s : State} {a : Nat} (h : s.config.bufBytes ≤ a) :
    perform (.bufRead a) s = .next { s with
      err := some (s.err.getD .badAccess)
      response := some (.value 8 (Config.readDraw 8 s.draws))
      draws := s.draws + 1 } := by
  rw [perform, bufRead, if_neg (not_lt.2 h), State.raise_eq]
  rfl

/-- In an engine that is not faulted a write inside BUF stores its byte, and answers. -/
theorem perform_bufWrite_inside {s : State} (he : s.err = none) {a : Nat} (h : a < s.config.bufBytes)
    (b : Byte) : perform (.bufWrite a b) s = .next ((s.setBufByte a b).respond .done) := by
  rw [perform, bufWrite, State.unlessFaulted_of_none _ _ he, if_pos h, respondWith_nextState]

/-- In an engine that is not faulted a write outside BUF raises BadAccess and changes nothing else. -/
theorem perform_bufWrite_outside {s : State} (he : s.err = none) {a : Nat} (h : s.config.bufBytes ≤ a)
    (b : Byte) :
    perform (.bufWrite a b) s = .next { s with err := some .badAccess, response := some .done } := by
  rw [perform, bufWrite, State.unlessFaulted_of_none _ _ he, if_neg (not_lt.2 h), State.raise_of_none _ _ he,
    respondWith_nextState]
  rfl

/-- Answering changes no byte of BUF. -/
@[simp] theorem State.bufByte_respond (s : State) (r : Response) (c : Nat) :
    (s.respond r).bufByte c = s.bufByte c := rfl

end Sys2Proof.Machine
end

section
/-! PROOFS. The statements about the four host transactions (20_memory section 2). -/

namespace Sys2Proof.Machine

/-- Settles O27: a legal read by the register it names, an illegal one by whether its number has a register. -/
theorem regReadReturnsRegister : Obligations.RegReadReturnsRegister := by
  unfold Obligations.RegReadReturnsRegister
  intro s
  refine ⟨perform_regRead_of_some rfl, perform_regRead_of_some rfl, perform_regRead_of_some rfl,
    ?_, ?_, ?_, ?_⟩
  · intro hs
    exact ⟨perform_regRead_of_some (if_pos hs), perform_regRead_of_some (if_pos hs),
      perform_regRead_of_some (if_pos hs), perform_regRead_of_some (if_pos hs),
      perform_regRead_of_some (if_pos hs), perform_regRead_of_some (if_pos hs)⟩
  · exact ⟨_, _, perform_regRead_draw rfl (by decide), rfl⟩
  · intro r hr hs
    have haccess : r.access ≠ .none := by cases r <;> simp [Reg.isMessage, Reg.access] at hr ⊢
    exact ⟨_, _, _, perform_regRead_draw (State.readReg?_of_absent hr hs) haccess, rfl⟩
  · intro k
    exact ⟨_, perform_regRead_unassigned s k, rfl⟩

/-- Settles O29: a legal write by the register it names, CMD by what its byte decodes to, an illegal write by
why it is illegal, and the frozen engine. -/
theorem regWriteStoresOneRegister : Obligations.RegWriteStoresOneRegister := by
  unfold Obligations.RegWriteStoresOneRegister
  refine ⟨fun s he => ⟨?_, ?_, ?_, ?_, ?_⟩, ?_⟩
  · intro v
    exact perform_regWrite_of_some (r := .len) (by decide) he v rfl
  · intro hs
    exact ⟨fun v => perform_regWrite_of_some (r := .mtype) (by decide) he v (if_pos hs),
      fun v => perform_regWrite_of_some (r := .mcode) (by decide) he v (if_pos hs),
      fun v => perform_regWrite_of_some (r := .mcsum) (by decide) he v (if_pos hs),
      fun v => perform_regWrite_of_some (r := .mident) (by decide) he v (if_pos hs),
      fun v => perform_regWrite_of_some (r := .mseq) (by decide) he v (if_pos hs),
      fun v => perform_regWrite_of_some (r := .mpayload) (by decide) he v (if_pos hs)⟩
  · intro c i hd
    exact perform_command_of_ok he hd
  · intro c e hd
    exact perform_command_of_error he hd
  · rintro r v (rfl | rfl | hnone | ⟨hr, hs⟩)
    · exact perform_regWrite_of_none he (by decide) rfl
    · exact perform_regWrite_of_none he (by decide) rfl
    · have hne : r ≠ .cmd := by rintro rfl; cases hnone
      exact perform_regWrite_of_none he hne (s.writeReg?_of_access_ne (by simp [hnone]) v)
    · have hne : r ≠ .cmd := by rintro rfl; cases hr
      exact perform_regWrite_of_none he hne (State.writeReg?_of_absent hr hs v)
  · intro s f r v he
    exact perform_write_of_faulted rfl he

/-- Settles O31: inside BUF by read after write, outside it by the fault, and the frozen engine. -/
theorem bufWriteStoresOneByte : Obligations.BufWriteStoresOneByte := by
  unfold Obligations.BufWriteStoresOneByte
  intro s a b
  refine ⟨fun he ha => ⟨_, perform_bufWrite_inside he ha b, rfl, ?_, ?_⟩,
    fun he ha => perform_bufWrite_outside he ha b, fun f he => perform_write_of_faulted rfl he⟩
  · rw [State.bufByte_respond, State.bufByte_setBufByte, if_pos rfl]
  · intro c hc
    rw [State.bufByte_respond, State.bufByte_setBufByte, if_neg hc]

/-- Settles O30: by whether the offset lies inside BUF. -/
theorem bufReadReturnsByte : Obligations.BufReadReturnsByte := by
  unfold Obligations.BufReadReturnsByte
  intro s a
  exact ⟨perform_bufRead_inside, fun ha => ⟨_, perform_bufRead_outside ha⟩⟩

end Sys2Proof.Machine
end

section
/-! SUPPORT. The decoder of command bytes: which bytes decode, and to which command (30_encoding R71, R74, R75). -/

namespace Sys2Proof

/-- Every command's opcode stands in the opcode map. -/
@[simp] theorem opcodeMap_encode (i : Instr) : opcodeMap (encode i) = some i := by
  cases i <;> rfl

/-- The opcode map holds nothing but the commands' opcodes. -/
theorem eq_encode_of_opcodeMap {op : Byte} {i : Instr} (h : opcodeMap op = some i) : op = encode i := by
  unfold opcodeMap at h
  split_ifs at h with h1 h2 h3 h4
  · cases h; exact h1
  · cases h; exact h2
  · cases h; exact h3
  · cases h; exact h4

/-- The opcode of a command that exists under the parameters decodes to it. -/
theorem decode_encode {c : Config} {i : Instr} (h : i.wellFormed c = true) : decode c (encode i) = .ok i := by
  simp [decode, h]

/-- A byte that decodes is the opcode of the command, and the command exists under the parameters. -/
theorem eq_encode_and_wellFormed_of_decode {c : Config} {op : Byte} {i : Instr} (h : decode c op = .ok i) :
    op = encode i ∧ i.wellFormed c = true := by
  unfold decode at h
  split at h
  · cases h
  · next j hmap =>
    split_ifs at h with hwf
    cases h
    exact ⟨eq_encode_of_opcodeMap hmap, hwf⟩

/-- COMPUTE exists under all parameters (00_scope R6). -/
@[simp] theorem Instr.wellFormed_compute (c : Config) : Instr.wellFormed c .compute = true := rfl

/-- With the unit every command exists. -/
theorem Instr.wellFormed_of_hasSerdes {c : Config} (h : c.hasSerdes = true) (i : Instr) :
    i.wellFormed c = true := by
  rw [Instr.wellFormed, h, Bool.or_true]

/-- Without the unit only COMPUTE exists. -/
theorem Instr.eq_compute_of_wellFormed {c : Config} {i : Instr} (h : i.wellFormed c = true)
    (hs : c.hasSerdes = false) : i = .compute := by
  cases i <;> simp [Instr.wellFormed, Instr.needsSerdes, hs] at h ⊢

/-- An opcode is neither 0x00 nor one of 0x05 to 0xFF. -/
theorem encode_ne_zero_and_lt (i : Instr) : encode i ≠ 0x00#8 ∧ encode i < 0x05#8 := by
  cases i <;> decide

/-- 0x00, 0x05 to 0xFF and, without the unit, 0x02 to 0x04 do not decode (30_encoding R74, R75). -/
theorem exists_decode_eq_error {c : Config} {op : Byte}
    (hop : op = 0x00#8 ∨ 0x05#8 ≤ op ∨ (c.hasSerdes = false ∧ 0x02#8 ≤ op ∧ op ≤ 0x04#8)) :
    ∃ e, decode c op = .error e := by
  cases hd : decode c op with
  | error e => exact ⟨e, rfl⟩
  | ok i =>
    exfalso
    obtain ⟨rfl, hwf⟩ := eq_encode_and_wellFormed_of_decode hd
    obtain ⟨hne, hlt⟩ := encode_ne_zero_and_lt i
    obtain hzero | hhigh | ⟨hs, htwo, -⟩ := hop
    · exact hne hzero
    · exact BitVec.not_le.2 hlt hhigh
    · obtain rfl := Instr.eq_compute_of_wellFormed hwf hs
      exact absurd htwo (by decide)

end Sys2Proof
end

section
/-! PROOFS. The statement about command bytes that are no opcode (30_encoding section 2). -/

namespace Sys2Proof.Machine

/-- Settles O33: an illegal byte does not decode; 0x01 and, with the unit, 0x04 are the opcodes of COMPUTE and
DECODE. -/
theorem illegalOpcodesRaiseIllegalCommand : Obligations.IllegalOpcodesRaiseIllegalCommand := by
  unfold Obligations.IllegalOpcodesRaiseIllegalCommand
  intro s he
  refine ⟨fun c hc => ?_, ?_, fun hs => ?_⟩
  · obtain ⟨e, hd⟩ := exists_decode_eq_error hc
    exact perform_command_of_error he hd
  · exact perform_command_of_ok he (decode_encode (i := .compute) (Instr.wellFormed_compute _))
  · exact perform_command_of_ok he (decode_encode (i := .decode) (Instr.wellFormed_of_hasSerdes hs _))

end Sys2Proof.Machine
end

section
/-! SUPPORT. The adder and the 16-bit accumulator as numbers: every end-around sum, and every folded wide sum, is
the one residue `endAround` of the plain sum (40_checksum R90, R93). -/

namespace Sys2Proof.Machine

/-! ### The end-around residue of a plain sum -/

/-- The closed form of R93: the representative of `t` modulo 0xFFFF that is 0 for 0 only, and 0xFFFF for every
other multiple of 0xFFFF. -/
def endAround (t : Nat) : Nat := if t = 0 then 0 else (t - 1) % 0xFFFF + 1

theorem endAround_of_pos {t : Nat} (h : 0 < t) : endAround t = (t - 1) % 0xFFFF + 1 := if_neg h.ne'

theorem endAround_le (t : Nat) : endAround t ≤ 0xFFFF := by
  unfold endAround
  split <;> omega

/-- A sum of 16 bits is its own residue. -/
theorem endAround_of_le {t : Nat} (h : t ≤ 0xFFFF) : endAround t = t := by
  unfold endAround
  split <;> omega

/-- Reducing a part of a sum first changes nothing. -/
theorem endAround_endAround_add (t u : Nat) : endAround (endAround t + u) = endAround (t + u) := by
  obtain rfl | ht := t.eq_zero_or_pos
  · rfl
  · rw [endAround_of_pos ht, endAround_of_pos (by omega), endAround_of_pos (by omega)]
    omega

/-! ### The adder -/

/-- The adder in numbers (40_checksum R90): 17 bits hold the plain sum, and adding the carry back cannot carry. -/
theorem ocAdd16_toNat (a b : Half) :
    (ocAdd16 a b).toNat =
      if a.toNat + b.toNat ≤ 0xFFFF then a.toNat + b.toNat else a.toNat + b.toNat - 0xFFFF := by
  have ha : a.toNat < 65536 := a.isLt
  have hb : b.toNat < 65536 := b.isLt
  simp only [ocAdd16, BitVec.toNat_add, BitVec.extractLsb'_toNat, BitVec.toNat_setWidth, Nat.shiftRight_eq_div_pow]
  split <;> omega

/-- The adder gives the residue of the plain sum. -/
theorem ocAdd16_toNat_eq_endAround (a b : Half) : (ocAdd16 a b).toNat = endAround (a.toNat + b.toNat) := by
  have ha : a.toNat < 65536 := a.isLt
  have hb : b.toNat < 65536 := b.isLt
  rw [ocAdd16_toNat]
  split
  · next hle => rw [endAround_of_le hle]
  · next hgt =>
    rw [endAround_of_pos (by omega)]
    omega

/-! ### The accumulator -/

@[simp] theorem wordTotal_nil : wordTotal [] = 0 := rfl

@[simp] theorem wordTotal_cons (w : Half) (ws : List Half) : wordTotal (w :: ws) = w.toNat + wordTotal ws :=
  List.sum_cons

theorem wordTotal_eq_zero_iff (ws : List Half) : wordTotal ws = 0 ↔ ∀ w ∈ ws, w = 0x0000#16 := by
  simp [wordTotal, List.sum_eq_zero_iff, ← BitVec.toNat_inj]

/-- From any accumulator, adding words one after the other gives the residue of the plain sum. -/
theorem foldl_ocAdd16_toNat (ws : List Half) (a : Half) :
    (ws.foldl ocAdd16 a).toNat = endAround (a.toNat + wordTotal ws) := by
  induction ws generalizing a with
  | nil => exact (endAround_of_le (Nat.le_of_lt_succ a.isLt)).symm
  | cons w ws ih =>
    rw [List.foldl_cons, ih, ocAdd16_toNat_eq_endAround, endAround_endAround_add, wordTotal_cons, Nat.add_assoc]

theorem ocSum_toNat (ws : List Half) : (ocSum ws).toNat = endAround (wordTotal ws) := by
  rw [ocSum, foldl_ocAdd16_toNat]
  simp

/-! ### The wide sum, folded -/

/-- A pass keeps the residue, since 65536 is 1 modulo 0xFFFF. -/
theorem endAround_foldPass (t : Nat) : endAround (foldPass t) = endAround t := by
  unfold endAround foldPass
  split <;> split <;> omega

theorem foldPass_lt {t : Nat} (h : 0xFFFF < t) : foldPass t < t := by
  unfold foldPass
  omega

/-- With fuel for as many passes as the sum is large, the loop ends at the residue. -/
theorem foldPasses_eq_endAround {fuel t : Nat} (h : t ≤ fuel) : foldPasses fuel t = endAround t := by
  induction fuel generalizing t with
  | zero =>
    obtain rfl := Nat.le_zero.1 h
    rfl
  | succ fuel ih =>
    rw [foldPasses]
    split
    · next hwide =>
      have hlt := foldPass_lt hwide
      rw [ih (by omega), endAround_foldPass]
    · next hnarrow => rw [endAround_of_le (not_lt.1 hnarrow)]

theorem fold_eq_endAround (t : Nat) : fold t = endAround t := foldPasses_eq_endAround (Nat.le_refl t)

/-- The loop equation of R93. -/
theorem fold_eq_foldPass (t : Nat) : fold t = if 0xFFFF < t then fold (foldPass t) else t := by
  rw [fold_eq_endAround, fold_eq_endAround, endAround_foldPass]
  split
  · rfl
  · next hnarrow => exact endAround_of_le (not_lt.1 hnarrow)

end Sys2Proof.Machine
end

section
/-! SUPPORT. The words of a byte sequence: by offsets, and after an even number of bytes (40_checksum R91, R92). -/

namespace Sys2Proof.Machine

/-- The byte at the lower offset weighs 256 (20_memory R56). -/
theorem joinBytes_toNat (h l : Byte) : (joinBytes h l).toNat = 256 * h.toNat + l.toNat := by
  rw [joinBytes, BitVec.toNat_append, ← Nat.shiftLeft_add_eq_or_of_lt l.isLt, Nat.shiftLeft_eq]
  omega

/-- The word of the pair at the offsets `2 * i` and `2 * i + 1` (R91). -/
def pairWord (bs : List Byte) (i : Nat) : Half := joinBytes (bs.getD (2 * i) 0) (bs.getD (2 * i + 1) 0)

/-- The word of the last byte of an odd number of bytes, with a zero low byte; no word for an even
number (R92). -/
def oddWord (bs : List Byte) : List Half :=
  if bs.length % 2 = 1 then [joinBytes (bs.getD (bs.length - 1) 0) 0x00#8] else []

/-- A pair in front moves every other pair up by one. -/
theorem pairWord_cons_cons_comp_succ (h l : Byte) (rest : List Byte) :
    pairWord (h :: l :: rest) ∘ Nat.succ = pairWord rest := rfl

/-- A pair in front does not move the last byte's word. -/
theorem oddWord_cons_cons (h l : Byte) (rest : List Byte) : oddWord (h :: l :: rest) = oddWord rest := by
  have hparity : (h :: l :: rest).length % 2 = rest.length % 2 := by simp only [List.length_cons]; omega
  rw [oddWord, oddWord, hparity]
  cases rest with
  | nil => rfl
  | cons b rest => rfl

/-- The words by offsets: the pairs from offset 0 upward, then the odd last byte. -/
theorem wordsOf_eq_pairs (bs : List Byte) :
    wordsOf bs = (List.range (bs.length / 2)).map (pairWord bs) ++ oddWord bs := by
  induction bs using wordsOf.induct with
  | case1 => rfl
  | case2 b => simp [wordsOf, oddWord]
  | case3 h l rest ih =>
    have hlen : (h :: l :: rest).length / 2 = rest.length / 2 + 1 := by simp only [List.length_cons]; omega
    rw [wordsOf, ih, hlen, List.range_succ_eq_map, List.map_cons, List.map_map,
      pairWord_cons_cons_comp_succ, oddWord_cons_cons]
    rfl

theorem length_wordsOf (bs : List Byte) : (wordsOf bs).length = (bs.length + 1) / 2 := by
  induction bs using wordsOf.induct with
  | case1 => rfl
  | case2 b => simp [wordsOf]
  | case3 h l rest ih =>
    simp only [wordsOf, List.length_cons, ih]
    omega

theorem getElem?_wordsOf {bs : List Byte} {i : Nat} (h : 2 * i + 1 < bs.length) :
    (wordsOf bs)[i]? = some (joinBytes bs[2 * i] bs[2 * i + 1]) := by
  have hi : i < bs.length / 2 := by omega
  rw [wordsOf_eq_pairs, List.getElem?_append_left (by simpa using hi), List.getElem?_map,
    List.getElem?_range hi]
  simp [pairWord, h, Nat.lt_of_succ_lt h]

/-- An even number of bytes leaves no byte without a partner, so the words after them are formed as from
offset 0. -/
theorem wordsOf_append_of_even {bs : List Byte} (h : bs.length % 2 = 0) (cs : List Byte) :
    wordsOf (bs ++ cs) = wordsOf bs ++ wordsOf cs := by
  induction bs using wordsOf.induct with
  | case1 => rfl
  | case2 b => cases h
  | case3 x y rest ih =>
    have hrest : rest.length % 2 = 0 := by simp only [List.length_cons] at h; omega
    simp only [List.cons_append, wordsOf, ih hrest]

/-- No byte, no addition (40_checksum R97). -/
@[simp] theorem compute_nil : compute [] = 0xFFFF#16 := by decide

/-- The complement needs no adjustment (40_checksum R95). -/
theorem compute_toNat (bs : List Byte) : (compute bs).toNat = 0xFFFF - (ocSum (wordsOf bs)).toNat :=
  BitVec.toNat_not

end Sys2Proof.Machine
end

section
/-! PROOFS. The statements about the adder and the pure function compute (40_checksum section 1). -/

namespace Sys2Proof.Machine

/-- Settles O1: the adder in numbers; a sum of two 16-bit numbers that carries leaves at most 0xFFFE below bit
16. -/
theorem adderHasEndAroundCarry : Obligations.AdderHasEndAroundCarry := by
  unfold Obligations.AdderHasEndAroundCarry
  refine ⟨ocAdd16_toNat, fun a b => ?_, by decide, by decide, by decide⟩
  have ha : a.toNat < 65536 := a.isLt
  have hb : b.toNat < 65536 := b.isLt
  omega

/-- Settles O2: the words by offsets, their number by induction on the pairs. -/
theorem wordsAreBigEndianPairs : Obligations.WordsAreBigEndianPairs := by
  unfold Obligations.WordsAreBigEndianPairs
  exact ⟨fun _ _ h => getElem?_wordsOf h, length_wordsOf, joinBytes_toNat⟩

/-- Settles O3: after an even number of bytes the last byte is a sequence of its own. -/
theorem oddByteIsHighByte : Obligations.OddByteIsHighByte := by
  unfold Obligations.OddByteIsHighByte
  intro bs b h
  exact ⟨joinBytes b 0x00#8, wordsOf_append_of_even h [b], joinBytes_toNat b 0x00#8⟩

/-- Settles O4: both constructions give the end-around residue of the plain sum. -/
theorem wideAccumulatorFoldsToSameSum : Obligations.WideAccumulatorFoldsToSameSum := by
  unfold Obligations.WideAccumulatorFoldsToSameSum
  refine ⟨fun ws => ?_, fun ws => ?_, fold_eq_foldPass, fun t => ?_, rfl, rfl⟩
  · rw [ocSum_toNat, fold_eq_endAround]
  · simp only [← wordTotal_eq_zero_iff, ocSum_toNat, endAround]
  · rw [fold_eq_endAround]
    exact endAround_le t

/-- Settles O5: the accumulator takes the words by offsets, and the odd byte last. -/
theorem computeIsTheLoopOfTheRule : Obligations.ComputeIsTheLoopOfTheRule := by
  unfold Obligations.ComputeIsTheLoopOfTheRule
  refine ⟨fun bs => ?_, compute_toNat⟩
  rw [compute, ocSum, wordsOf_eq_pairs, List.foldl_append, List.foldl_map, oddWord]
  split <;> rfl

end Sys2Proof.Machine
end

section
/-! SUPPORT. What COMPUTE and VALIDATE do in an engine that is not faulted (40_checksum R98, R99). -/

namespace Sys2Proof.Machine

@[simp] theorem State.bufPrefix_zero (s : State) : s.bufPrefix 0 = [] := rfl

/-- What `memRead` reads from offset 0 on is `BUF[0 .. n-1]`. -/
theorem State.toList_ofFn_bufByte (s : State) (n : Nat) :
    (Vector.ofFn (n := n) fun k => s.bufByte (0 + k.val)).toList = s.bufPrefix n := by
  simp [State.bufPrefix, Vector.toList_ofFn, List.ofFn_eq_map, ← List.map_coe_finRange_eq_range]

/-- With LEN at most BUF_BYTES, COMPUTE stores the checksum of `BUF[0 .. LEN-1]` and changes nothing else. -/
theorem exec_compute_of_le {s : State} (he : s.err = none) (hl : s.len.toNat ≤ s.config.bufBytes) :
    exec .compute s = .next { s with result := compute (s.bufPrefix s.len.toNat) } := by
  rw [exec, execCompute, State.unlessFaulted_of_none _ _ he, if_neg (not_lt.2 hl), State.withBytes_eq,
    if_pos (by omega), State.toList_ofFn_bufByte]

/-- With LEN above BUF_BYTES, COMPUTE raises LenRange and changes nothing else. -/
theorem exec_compute_of_gt {s : State} (he : s.err = none) (hl : s.config.bufBytes < s.len.toNat) :
    exec .compute s = .next { s with err := some .lenRange } := by
  rw [exec, execCompute, State.unlessFaulted_of_none _ _ he, if_pos hl, State.raise_of_none _ _ he]

/-- With the unit, VALIDATE compares the message's checksum with MCSUM and changes VALID only. -/
theorem exec_validate_of_hasSerdes {s : State} (he : s.err = none) (hs : s.config.hasSerdes = true) :
    exec .validate s = .next { s with valid := validFlag s.message.checksumOf s.mcsum } := by
  rw [exec, execValidate, State.unlessFaulted_of_none _ _ he, State.withSerdes_of_true _ _ hs]
  rfl

/-- VALIDATE compares bit for bit. -/
theorem validFlag_eq_decide (computed stored : Half) : validFlag computed stored = decide (computed = stored) :=
  rfl

/-- An opcode decodes to its command exactly where the command exists. -/
theorem decode_encode_iff (c : Config) (i : Instr) : decode c (encode i) = .ok i ↔ i.wellFormed c = true :=
  ⟨fun h => (eq_encode_and_wellFormed_of_decode h).2, decode_encode⟩

/-- VALIDATE exists exactly with the unit (30_encoding R75). -/
theorem wellFormed_validate_iff (c : Config) : Instr.wellFormed c .validate = true ↔ c.hasSerdes = true :=
  Iff.rfl

end Sys2Proof.Machine
end

section
/-! PROOFS. The statements about the commands COMPUTE and VALIDATE (40_checksum section 2). -/

namespace Sys2Proof.Machine

/-- Settles O19: by LEN against BUF_BYTES; LEN = 0 is the checksum of no byte. -/
theorem computeStoresChecksum : Obligations.ComputeStoresChecksum := by
  unfold Obligations.ComputeStoresChecksum
  intro s he
  refine ⟨exec_compute_of_le he, exec_compute_of_gt he, fun h0 => ?_⟩
  have hlen : s.len.toNat = 0 := by rw [h0]; rfl
  rw [exec_compute_of_le he (hlen ▸ Nat.zero_le _), hlen, State.bufPrefix_zero, compute_nil]

/-- Settles O22: the opcode by where VALIDATE exists, the effect by the checksum of the message registers. -/
theorem validateSetsValidOnly : Obligations.ValidateSetsValidOnly := by
  unfold Obligations.ValidateSetsValidOnly
  refine ⟨⟨rfl, fun c => ?_⟩, fun s he hs => ?_⟩
  · exact (decode_encode_iff c .validate).trans (wellFormed_validate_iff c)
  · rw [exec_validate_of_hasSerdes he hs, validFlag_eq_decide]
    rfl

end Sys2Proof.Machine
end

section
/-! SUPPORT. The bytes of a 16-bit and of a 32-bit value as numbers, and the values they are joined to
(20_memory R56). -/

namespace Sys2Proof.Machine

theorem hiByte_toNat (w : Half) : (hiByte w).toNat = w.toNat / 256 := by
  have hw : w.toNat < 65536 := w.isLt
  rw [hiByte, BitVec.extractLsb'_toNat, Nat.shiftRight_eq_div_pow]
  omega

theorem loByte_toNat (w : Half) : (loByte w).toNat = w.toNat % 256 := by
  rw [loByte, BitVec.extractLsb'_toNat, Nat.shiftRight_zero]

theorem quadByte_toNat (v : Quad) (k : Nat) : (quadByte v k).toNat = v.toNat / 256 ^ k % 256 := by
  rw [quadByte, BitVec.extractLsb'_toNat, Nat.shiftRight_eq_div_pow, Nat.pow_mul]

/-- The two bytes of a value are its digits to the base 256. -/
theorem hiByte_loByte_toNat (w : Half) : 256 * (hiByte w).toNat + (loByte w).toNat = w.toNat := by
  rw [hiByte_toNat, loByte_toNat, Nat.div_add_mod]

/-- The four bytes of a value are its digits to the base 256. -/
theorem quadBytes_toNat (v : Quad) :
    16777216 * (quadByte v 3).toNat + 65536 * (quadByte v 2).toNat + 256 * (quadByte v 1).toNat +
      (quadByte v 0).toNat = v.toNat := by
  have hv : v.toNat < 4294967296 := v.isLt
  simp only [quadByte_toNat]
  omega

/-- Four bytes in a row are two pairs in a row. -/
theorem joinQuad_toNat (b0 b1 b2 b3 : Byte) :
    (joinQuad b0 b1 b2 b3).toNat =
      16777216 * b0.toNat + 65536 * b1.toNat + 256 * b2.toNat + b3.toNat := by
  have hpairs : joinQuad b0 b1 b2 b3 = joinBytes b0 b1 ++ joinBytes b2 b3 :=
    BitVec.append_assoc
  rw [hpairs, BitVec.toNat_append, ← Nat.shiftLeft_add_eq_or_of_lt (joinBytes b2 b3).isLt,
    Nat.shiftLeft_eq, joinBytes_toNat, joinBytes_toNat]
  omega

end Sys2Proof.Machine
end

section
/-! PROOFS. The statements about the pure functions encode and decode (41_serdes section 1). -/

namespace Sys2Proof.Machine

/-- Settles O12: each multi-byte field by its digits to the base 256. -/
theorem encodeLaysFieldsOutBigEndian : Obligations.EncodeLaysFieldsOutBigEndian := by
  unfold Obligations.EncodeLaysFieldsOutBigEndian
  intro m
  exact ⟨rfl, rfl, hiByte_loByte_toNat m.checksum, hiByte_loByte_toNat m.identifier,
    hiByte_loByte_toNat m.sequenceNumber, quadBytes_toNat m.payload⟩

/-- Settles O13: each multi-byte field by the value of the bytes joined. -/
theorem decodeReadsFieldsBigEndian : Obligations.DecodeReadsFieldsBigEndian := by
  unfold Obligations.DecodeReadsFieldsBigEndian
  intro b
  exact ⟨rfl, rfl, joinBytes_toNat b[2] b[3], joinBytes_toNat b[4] b[5], joinBytes_toNat b[6] b[7],
    joinQuad_toNat b[8] b[9] b[10] b[11]⟩

end Sys2Proof.Machine
end

section
/-! SUPPORT. What ENCODE and DECODE do in an engine that is not faulted and has the unit (41_serdes R125, R126),
and where they exist (30_encoding R75). -/

namespace Sys2Proof.Machine

/-- The opcode of a command of the optional unit decodes to it exactly with the unit. -/
theorem decode_encode_iff_hasSerdes {i : Instr} (hi : i.needsSerdes = true) (c : Config) :
    decode c (encode i) = .ok i ↔ c.hasSerdes = true := by
  rw [decode_encode_iff, Instr.wellFormed, hi, Bool.not_true, Bool.false_or]

/-! ### ENCODE -/

/-- The state ENCODE leaves: the wire bytes of the message registers at the start of BUF, and LEN 12. -/
def State.encoded (s : State) : State :=
  { s with buf := Memory.insertBytes s.buf 0 (encodeMessage s.message).toList, len := 12#16 }

theorem exec_encode_of_serdesReady {s : State} (h : s.SerdesReady) : exec .encode s = .next s.encoded := by
  obtain ⟨he, ⟨hmin, -⟩, hs⟩ := h
  rw [exec, execEncode, State.unlessFaulted_of_none _ _ he, State.withSerdes_of_true _ _ hs,
    State.storing_eq, if_pos (by omega)]
  rfl

/-- BUF after ENCODE: the wire bytes at the offsets 0 to 11, and every other byte as before. -/
theorem State.bufByte_encoded (s : State) (a : Nat) :
    s.encoded.bufByte a = if h : a < 12 then (encodeMessage s.message)[a] else s.bufByte a := by
  have hstore : s.encoded.bufByte a =
      ({ s with buf := Memory.insertBytes s.buf 0 (encodeMessage s.message).toList } : State).bufByte a :=
    State.bufByte_congr rfl rfl a
  rw [hstore, State.bufByte_insertBytes]
  by_cases h : a < 12 <;> simp [h]

/-! ### DECODE -/

theorem State.getElem_wireBytes (s : State) {i : Nat} (h : i < 12) : s.wireBytes[i] = s.bufByte i :=
  Vector.getElem_ofFn h

/-- What `memRead` reads of the 12 bytes from offset 0 on is the place of a message. -/
theorem State.ofFn_bufByte_eq_wireBytes (s : State) :
    (Vector.ofFn (n := 12) fun k => s.bufByte (0 + k.val)) = s.wireBytes := by
  simp only [State.wireBytes, Nat.zero_add]

/-- With LEN at least 12, DECODE writes the message in `BUF[0 .. 11]` to the message registers. -/
theorem exec_decode_of_le {s : State} (h : s.SerdesReady) (hl : 12 ≤ s.len.toNat) :
    exec .decode s = .next (s.setMessage (decodeMessage s.wireBytes)) := by
  obtain ⟨he, ⟨hmin, -⟩, hs⟩ := h
  rw [exec, execDecode, State.unlessFaulted_of_none _ _ he, State.withSerdes_of_true _ _ hs,
    if_neg (not_lt.2 hl), State.withBytes_eq, if_pos (by omega), State.ofFn_bufByte_eq_wireBytes]

/-- With LEN below 12, DECODE raises ShortMessage and changes nothing else (60_exceptions R145). -/
theorem exec_decode_of_lt {s : State} (he : s.err = none) (hs : s.config.hasSerdes = true)
    (hl : s.len.toNat < 12) : exec .decode s = .next { s with err := some .shortMessage } := by
  rw [exec, execDecode, State.unlessFaulted_of_none _ _ he, State.withSerdes_of_true _ _ hs, if_pos hl,
    State.raise_of_none _ _ he]

end Sys2Proof.Machine
end

section
/-! PROOFS. The statements about the commands ENCODE and DECODE (41_serdes section 2). -/

namespace Sys2Proof.Machine

/-- Settles O24: the opcode by where ENCODE exists, the effect by the bytes of BUF it leaves. -/
theorem encodeWritesWireBytesAndLen : Obligations.EncodeWritesWireBytesAndLen := by
  unfold Obligations.EncodeWritesWireBytesAndLen
  refine ⟨⟨rfl, decode_encode_iff_hasSerdes (i := .encode) rfl⟩, fun s h => ?_⟩
  refine ⟨s.encoded, exec_encode_of_serdesReady h, rfl, fun i hi => ?_, fun a ha => ?_⟩
  · rw [State.bufByte_encoded, dif_pos hi]
  · rw [State.bufByte_encoded, dif_neg (not_lt.2 ha)]

/-- Settles O25: the opcode by where DECODE exists, the effect by LEN against 12. -/
theorem decodeFillsMessageRegisters : Obligations.DecodeFillsMessageRegisters := by
  unfold Obligations.DecodeFillsMessageRegisters
  refine ⟨⟨rfl, decode_encode_iff_hasSerdes (i := .decode) rfl⟩, fun s he hs => ⟨fun hwf hl => ?_, ?_⟩⟩
  · rw [exec_decode_of_le ⟨he, hwf, hs⟩ hl]
    simp only [State.setMessage, decodeMessage, State.getElem_wireBytes, joinBytes, joinQuad]
  · exact exec_decode_of_lt he hs

end Sys2Proof.Machine
end

section
/-! SUPPORT. The accesses of a register that is not there, and the illegal reads as one shape (60_exceptions R144,
R147). -/

namespace Sys2Proof.Machine

/-- The register is not there: its number is unassigned, or it belongs to the absent unit (60_exceptions R144). -/
def State.LacksReg (s : State) (r : Reg) : Prop :=
  r.access = .none ∨ (r.isMessage = true ∧ s.config.hasSerdes = false)

/-- CMD is always there. -/
theorem State.LacksReg.ne_cmd {s : State} {r : Reg} (h : s.LacksReg r) : r ≠ .cmd := by
  rintro rfl
  obtain hnone | ⟨hmessage, -⟩ := h
  · cases hnone
  · cases hmessage

/-- An unassigned number cannot be read. -/
theorem State.readReg?_of_access_none (s : State) {r : Reg} (hr : r.access = .none) : s.readReg? r = none := by
  cases r with
  | unassigned k => rfl
  | _ => cases hr

theorem State.LacksReg.readReg?_eq_none {s : State} {r : Reg} (h : s.LacksReg r) : s.readReg? r = none := by
  obtain hnone | ⟨hr, hs⟩ := h
  · exact s.readReg?_of_access_none hnone
  · exact State.readReg?_of_absent hr hs

theorem State.LacksReg.writeReg?_eq_none {s : State} {r : Reg} (h : s.LacksReg r) (v : BitVec r.width) :
    s.writeReg? r v = none := by
  obtain hnone | ⟨hr, hs⟩ := h
  · exact s.writeReg?_of_access_ne (by simp [hnone]) v
  · exact State.writeReg?_of_absent hr hs v

/-- An illegal RegRead raises BadAccess; beside ERR only the response and the count of draws can change. -/
theorem exists_perform_regRead_of_none {s : State} {r : Reg} (h : s.readReg? r = none) :
    ∃ a d, perform (.regRead r) s =
      .next { s with err := some (s.err.getD .badAccess), response := a, draws := d } := by
  obtain ⟨a, d, -, hshape⟩ := (s.raise .badAccess).respondIllegalRead_shape r
  refine ⟨a, d, ?_⟩
  rw [perform_regRead_of_none h, hshape, State.raise_eq]

end Sys2Proof.Machine
end

section
/-! SUPPORT. A recorded fault stays, and a first fault is all that its transaction changes (60_exceptions R141,
R146). -/

namespace Sys2Proof.Machine

/-- Raising a fault where one is recorded leaves ERR as it is. -/
theorem State.some_getD_err {s : State} {f : EngineFault} (he : s.err = some f) (g : EngineFault) :
    some (s.err.getD g) = s.err := by
  rw [he, Option.getD_some]

/-- A command to a faulted engine changes nothing (60_exceptions R146). -/
theorem exec_of_faulted {s : State} {f : EngineFault} (he : s.err = some f) (i : Instr) : exec i s = .next s := by
  cases i with
  | compute => rw [exec, execCompute, State.unlessFaulted_of_some _ _ he]
  | validate => rw [exec, execValidate, State.unlessFaulted_of_some _ _ he]
  | encode => rw [exec, execEncode, State.unlessFaulted_of_some _ _ he]
  | decode => rw [exec, execDecode, State.unlessFaulted_of_some _ _ he]

/-- A register write records no fault. -/
theorem State.err_of_writeReg?_eq_some {s t : State} {r : Reg} {v : BitVec r.width}
    (h : s.writeReg? r v = some t) : t.err = s.err := by
  obtain ⟨hframe, -⟩ := State.writeReg?_cases h
  rw [hframe]

/-- A command that records a first fault changes nothing else. -/
theorem ExecNext.eq_of_first_fault {i : Instr} {s t : State} {f : EngineFault} (h : ExecNext i s t)
    (he : s.err = none) (hf : t.err = some f) : t = { s with err := some f } := by
  cases h with
  | fault g => cases hf; rfl
  | frozen | compute | validate | encode | decode => exact absurd (hf.symm.trans he) (Option.some_ne_none f)

/-- A transaction that records a first fault changes nothing else, beside the response and the count of draws. -/
theorem PerformNext.eq_of_first_fault {t : Transaction} {s u : State} {f : EngineFault} (h : PerformNext t s u)
    (he : s.err = none) (hf : u.err = some f) :
    u = { s with err := some f, response := u.response, draws := u.draws } := by
  cases h with
  | fault g => cases hf; rfl
  | command c i w ht hd _ hx =>
    obtain rfl := (exec_next hx).eq_of_first_fault he hf
    rfl
  | register r v w ht hr _ hv =>
    have hnone : w.err = none := (State.err_of_writeReg?_eq_some hv).trans he
    exact absurd (hf.symm.trans hnone) (Option.some_ne_none f)
  | quiet | byte => exact absurd (hf.symm.trans he) (Option.some_ne_none f)

/-- No transaction changes a fault that is recorded. -/
theorem PerformNext.err_of_faulted {t : Transaction} {s u : State} {f : EngineFault} (h : PerformNext t s u)
    (he : s.err = some f) : u.err = some f := by
  cases h with
  | quiet => exact he
  | fault | command | register | byte =>
    exact absurd (he.symm.trans ‹s.err = none›) (Option.some_ne_none f)

end Sys2Proof.Machine
end

section
/-! PROOFS. The statements about faults (60_exceptions sections 1 and 2). -/

namespace Sys2Proof.Machine

/-- Settles O20: COMPUTE by LEN against BUF_BYTES, a write of LEN as a legal write, DECODE by LEN against 12,
which BUF_BYTES is not below. -/
theorem oversizedLenRaisesLenRange : Obligations.OversizedLenRaisesLenRange := by
  unfold Obligations.OversizedLenRaisesLenRange
  intro s he
  refine ⟨fun hl => ?_, fun hl => ?_, fun v => ?_, ?_⟩
  · exact ⟨_, exec_compute_of_gt he hl, rfl, rfl⟩
  · exact ⟨_, exec_compute_of_le he hl.le, he⟩
  · exact ⟨_, perform_regWrite_of_some (r := .len) (by decide) he v rfl, he, rfl⟩
  · rintro ⟨-, hwf, hs⟩ hl
    have hmin : 12 ≤ s.config.bufBytes := hwf.1
    exact ⟨_, exec_decode_of_le ⟨he, hwf, hs⟩ (by omega), he⟩

/-- Settles O32: each illegal access by why it is illegal, each accepted one as a legal access. -/
theorem illegalAccessesRaiseBadAccess : Obligations.IllegalAccessesRaiseBadAccess := by
  unfold Obligations.IllegalAccessesRaiseBadAccess
  intro s he ⟨hmin, _⟩
  have hfirst : some (s.err.getD .badAccess) = some EngineFault.badAccess := by rw [he, Option.getD_none]
  refine ⟨?_, fun hs => ?_, ?_, fun v => ?_, ?_⟩
  · rintro t (⟨r, hr, ht⟩ | ⟨v, rfl⟩ | ⟨v, rfl⟩ | rfl | ⟨a, ha, rfl | ⟨b, rfl⟩⟩)
    · have hlacks : s.LacksReg r := hr
      obtain rfl | ⟨v, rfl⟩ := ht
      · obtain ⟨_, _, hread⟩ := exists_perform_regRead_of_none hlacks.readReg?_eq_none
        exact ⟨_, hread, hfirst⟩
      · exact ⟨_, perform_regWrite_of_none he hlacks.ne_cmd (hlacks.writeReg?_eq_none v), rfl⟩
    · exact ⟨_, perform_regWrite_of_none he (by decide) rfl, rfl⟩
    · exact ⟨_, perform_regWrite_of_none he (by decide) rfl, rfl⟩
    · exact ⟨_, perform_regRead_draw rfl (by decide), hfirst⟩
    · exact ⟨_, perform_bufRead_outside ha, hfirst⟩
    · exact ⟨_, perform_bufWrite_outside he ha b, rfl⟩
  · exact ⟨_, perform_regRead_of_some (r := .mpayload) (if_pos hs), he⟩
  · exact ⟨_, perform_regRead_of_some (r := .status) rfl, he⟩
  · exact ⟨_, perform_regWrite_of_some (r := .len) (by decide) he v rfl, he⟩
  · exact ⟨_, perform_bufRead_inside (by omega), he⟩

/-- Settles O36: commands and writes by the frozen engine, reads by whether they are legal; an illegal one keeps
the fault that is recorded. -/
theorem faultedEngineIsFrozen : Obligations.FaultedEngineIsFrozen := by
  unfold Obligations.FaultedEngineIsFrozen
  intro s f he
  refine ⟨exec_of_faulted he, fun t ht => perform_write_of_faulted ht he,
    fun r v hv => perform_regRead_of_some hv, fun a ha => perform_bufRead_inside ha,
    fun r hr => ?_, fun a ha => ?_⟩
  · obtain ⟨_, _, hread⟩ := exists_perform_regRead_of_none hr
    exact ⟨_, hread, by rw [State.some_getD_err he]⟩
  · exact ⟨_, perform_bufRead_outside ha, by rw [State.some_getD_err he]⟩

/-- Settles O37: everything a transaction can do, first in an engine that is not faulted, then in a faulted
one. -/
theorem faultsArePrecise : Obligations.FaultsArePrecise := by
  unfold Obligations.FaultsArePrecise
  exact ⟨fun t s u f he hu hf => (perform_next hu).eq_of_first_fault he hf,
    fun t s u f he hu => (perform_next hu).err_of_faulted he⟩

end Sys2Proof.Machine
end

section
/-! SUPPORT. Splitting a value into its bytes and joining them again are inverse, so the message layout loses no
bit (41_serdes R123). -/

namespace Sys2Proof.Machine

/-! ### 16-bit values -/

@[simp] theorem joinBytes_hiByte_loByte (w : Half) : joinBytes (hiByte w) (loByte w) = w :=
  BitVec.eq_of_toNat_eq (by rw [joinBytes_toNat, hiByte_loByte_toNat])

@[simp] theorem hiByte_joinBytes (h l : Byte) : hiByte (joinBytes h l) = h := by
  have hl : l.toNat < 256 := l.isLt
  apply BitVec.eq_of_toNat_eq
  rw [hiByte_toNat, joinBytes_toNat]
  omega

@[simp] theorem loByte_joinBytes (h l : Byte) : loByte (joinBytes h l) = l := by
  have hl : l.toNat < 256 := l.isLt
  apply BitVec.eq_of_toNat_eq
  rw [loByte_toNat, joinBytes_toNat]
  omega

/-! ### 32-bit values -/

@[simp] theorem joinQuad_quadBytes (v : Quad) :
    joinQuad (quadByte v 3) (quadByte v 2) (quadByte v 1) (quadByte v 0) = v :=
  BitVec.eq_of_toNat_eq (by rw [joinQuad_toNat, quadBytes_toNat])

/-- The bytes of four joined bytes, from the least significant one. -/
theorem quadByte_joinQuad (b0 b1 b2 b3 : Byte) :
    quadByte (joinQuad b0 b1 b2 b3) 3 = b0 ∧ quadByte (joinQuad b0 b1 b2 b3) 2 = b1 ∧
      quadByte (joinQuad b0 b1 b2 b3) 1 = b2 ∧ quadByte (joinQuad b0 b1 b2 b3) 0 = b3 := by
  have h1 : b1.toNat < 256 := b1.isLt
  have h2 : b2.toNat < 256 := b2.isLt
  have h3 : b3.toNat < 256 := b3.isLt
  have h0 : b0.toNat < 256 := b0.isLt
  refine ⟨?_, ?_, ?_, ?_⟩ <;>
    · apply BitVec.eq_of_toNat_eq
      rw [quadByte_toNat, joinQuad_toNat]
      omega

/-! ### Messages -/

theorem decodeMessage_encodeMessage (m : Message) : decodeMessage (encodeMessage m) = m := by
  simp [decodeMessage, encodeMessage]

theorem encodeMessage_decodeMessage (b : Vector Byte 12) : encodeMessage (decodeMessage b) = b := by
  obtain ⟨h3, h2, h1, h0⟩ := quadByte_joinQuad b[8] b[9] b[10] b[11]
  simp only [encodeMessage, decodeMessage, hiByte_joinBytes, loByte_joinBytes, h3, h2, h1, h0]
  ext i hi
  interval_cases i <;> rfl

end Sys2Proof.Machine
end

section
/-! PROOFS. The statement about the pure functions encode and decode as inverse bijections (41_serdes
section 1). -/

namespace Sys2Proof.Machine

/-- Settles O14: each field by its bytes, each byte by its field. -/
theorem messageEncodingIsABijection : Obligations.MessageEncodingIsABijection := by
  unfold Obligations.MessageEncodingIsABijection
  exact ⟨decodeMessage_encodeMessage, encodeMessage_decodeMessage⟩

end Sys2Proof.Machine
end

section
/-! SUPPORT. Register numbers name one register each, the access column decides the accesses, and a
transaction tuple says its transaction whole (10_state R21, 30_encoding R78). -/

namespace Sys2Proof.Machine

/-! ### Register numbers -/

@[simp] theorem Reg.ofNumber_number (r : Reg) : Reg.ofNumber r.number = r := by
  cases r with
  | unassigned k => revert k; decide
  | _ => rfl

@[simp] theorem Reg.number_ofNumber (n : BitVec 4) : (Reg.ofNumber n).number = n := by
  revert n
  decide

/-- The message registers are those numbered 0x4 to 0x9 (00_scope R6). -/
theorem Reg.isMessage_iff (r : Reg) : r.isMessage = true ↔ 0x4#4 ≤ r.number ∧ r.number ≤ 0x9#4 := by
  cases r with
  | unassigned k => revert k; decide
  | _ => decide

/-- The unassigned numbers are 0xA to 0xF. -/
theorem Reg.number_unassigned_toNat (k : Fin 6) : (Reg.number (.unassigned k)).toNat = 0xA + k.val := by
  revert k
  decide

/-! ### Which accesses the host has -/

/-- The host may read exactly the registers its access column lets it, the message registers with the unit. -/
theorem State.isSome_readReg?_iff (s : State) (r : Reg) : (s.readReg? r).isSome = true ↔
    (r.access = .readWrite ∨ r.access = .readOnly) ∧ (r.isMessage = true → s.config.hasSerdes = true) := by
  cases r <;> simp [State.readReg?, Reg.access, Reg.isMessage]

/-- The host may write as data exactly the registers with access RW, the message registers with the unit. -/
theorem State.isSome_writeReg?_iff (s : State) (r : Reg) (v : BitVec r.width) :
    (s.writeReg? r v).isSome = true ↔
      r.access = .readWrite ∧ (r.isMessage = true → s.config.hasSerdes = true) := by
  cases r <;> simp [State.writeReg?, Reg.access, Reg.isMessage]

/-! ### Tuples -/

/-- A value of the register's width is written back as itself; a number without a register has width 0, and one
value of that width. -/
theorem registerWrite?_toNat (r : Reg) (v : BitVec r.width) :
    registerWrite? r v.toNat = some (.regWrite r v) := by
  cases r with
  | unassigned k => rw [BitVec.eq_nil v]; rfl
  | _ => simp [registerWrite?, Reg.access, v.isLt]

/-- The read-back of a register tuple finds the register by its number. -/
theorem Reg.ofNumber_ofNat_number (r : Reg) : Reg.ofNumber (BitVec.ofNat 4 r.number.toNat) = r := by
  rw [BitVec.ofNat_toNat, BitVec.setWidth_eq, Reg.ofNumber_number]

theorem Transaction.transaction?_tuple (t : Transaction) : t.tuple.transaction? = some t := by
  cases t with
  | regRead r =>
    have hnumber : r.number.toNat < 16 := r.number.isLt
    simp only [Transaction.tuple, Tuple.transaction?, if_pos hnumber, Reg.ofNumber_ofNat_number]
  | regWrite r v =>
    have hnumber : r.number.toNat < 16 := r.number.isLt
    simp only [Transaction.tuple, Tuple.transaction?, if_pos hnumber, Reg.ofNumber_ofNat_number,
      registerWrite?_toNat]
  | bufRead a => rfl
  | bufWrite a b =>
    have hbyte : b.toNat < 256 := b.isLt
    simp only [Transaction.tuple, Tuple.transaction?, if_pos hbyte, BitVec.ofNat_toNat, BitVec.setWidth_eq]

end Sys2Proof.Machine
end

section
/-! PROOFS. The statement about transaction tuples (30_encoding section 5). -/

namespace Sys2Proof.Machine

/-- Settles O17: the read-back by the kind of transaction; the tuples and the examples are the definition's. -/
theorem transactionTupleRoundTrip : Obligations.TransactionTupleRoundTrip := by
  unfold Obligations.TransactionTupleRoundTrip
  exact ⟨Transaction.transaction?_tuple, fun _ => rfl, fun _ _ => rfl, fun _ => rfl, fun _ _ => rfl,
    rfl, rfl, rfl⟩

end Sys2Proof.Machine
end

section
/-! SUPPORT. What no transaction touches, what an event does to the parameters and to the count of draws, and the
invariant through an event (10_state section 6, section 10). -/

namespace Sys2Proof.Machine

/-! ### One register write -/

/-- What a register write leaves as it is, beside LEN and the message registers. -/
theorem State.writeReg?_frame {s t : State} {r : Reg} {v : BitVec r.width} (h : s.writeReg? r v = some t) :
    t.config = s.config ∧ t.result = s.result ∧ t.valid = s.valid ∧ t.buf = s.buf ∧ t.resets = s.resets ∧
      t.draws = s.draws := by
  obtain ⟨hframe, -⟩ := State.writeReg?_cases h
  rw [hframe]
  exact ⟨rfl, rfl, rfl, rfl, rfl, rfl⟩

/-! ### The parameters and the count of draws -/

theorem ExecNext.config_eq {i : Instr} {s t : State} (h : ExecNext i s t) : t.config = s.config := by
  cases h with
  | decode => exact State.setMessage_config s _
  | frozen | fault | compute | validate | encode => rfl

theorem ExecNext.draws_eq {i : Instr} {s t : State} (h : ExecNext i s t) : t.draws = s.draws := by
  cases h with
  | decode => exact State.setMessage_draws s _
  | frozen | fault | compute | validate | encode => rfl

theorem PerformNext.config_eq {t : Transaction} {s u : State} (h : PerformNext t s u) : u.config = s.config := by
  cases h with
  | quiet | fault | byte => rfl
  | command c i w ht hd he hx => exact (exec_next hx).config_eq
  | register r v w ht hr he hv => exact (State.writeReg?_frame hv).1

/-- No transaction turns the count of draws back. -/
theorem PerformNext.draws_le {t : Transaction} {s u : State} (h : PerformNext t s u) : s.draws ≤ u.draws := by
  cases h with
  | quiet r d hd | fault f r d hd => exact hd
  | byte => exact Nat.le_refl _
  | command c i w ht hd he hx => exact (exec_next hx).draws_eq.ge
  | register r v w ht hr he hv =>
    obtain ⟨-, -, -, -, -, hdraws⟩ := State.writeReg?_frame hv
    exact hdraws.ge

theorem deliver_config {e : Event} {s t : State} (h : deliver e s = .next t) : t.config = s.config := by
  cases e with
  | transaction w => exact (perform_next h).config_eq
  | reset => cases h; rfl

theorem deliver_draws_le {e : Event} {s t : State} (h : deliver e s = .next t) : s.draws ≤ t.draws := by
  cases e with
  | transaction w => exact (perform_next h).draws_le
  | reset => cases h; exact Nat.le_refl _

/-! ### Where a command of the optional unit can run -/

theorem State.SerdesReady.err_eq_none {s : State} (h : s.SerdesReady) : s.err = none := by
  obtain ⟨he, -, -⟩ := h
  exact he

theorem State.SerdesReady.twelve_le_bufBytes {s : State} (h : s.SerdesReady) : 12 ≤ s.config.bufBytes := by
  obtain ⟨-, ⟨hmin, -⟩, -⟩ := h
  exact hmin

theorem State.SerdesReady.hasSerdes_eq_true {s : State} (h : s.SerdesReady) : s.config.hasSerdes = true := by
  obtain ⟨-, -, hs⟩ := h
  exact hs

/-! ### The invariant -/

/-- The invariant speaks of the parameters and of BUF only. -/
theorem State.Inv.congr {s t : State} (h : s.Inv) (hc : t.config = s.config) (hb : t.buf = s.buf) : t.Inv := by
  unfold State.Inv
  rw [hc, hb]
  exact h

/-- A byte written inside BUF keeps the invariant. -/
theorem State.Inv.setBufByte {s : State} (h : s.Inv) {a : Nat} (ha : a < s.config.bufBytes) (b : Byte) :
    (s.setBufByte a b).Inv := by
  obtain ⟨hwf, hcanon, hinside⟩ := h
  refine ⟨hwf, Memory.wf_insert hcanon a b, fun c hc => ?_⟩
  obtain rfl | hc := Memory.mem_insert hc
  · exact ha
  · exact hinside c hc

/-- ENCODE keeps the invariant where BUF has room for a message. -/
theorem State.Inv.encoded {s : State} (h : s.Inv) : s.encoded.Inv := by
  obtain ⟨hwf, hcanon, hinside⟩ := h
  refine ⟨hwf, Memory.wf_insertBytes hcanon _ _, fun c hc => ?_⟩
  obtain hc | ⟨-, hlt⟩ := Memory.mem_insertBytes hc
  · exact hinside c hc
  · have hroom : 12 ≤ s.config.bufBytes := hwf.1
    rw [Vector.length_toList] at hlt
    exact lt_of_lt_of_le (by omega) hroom

theorem ExecNext.inv {i : Instr} {s t : State} (h : ExecNext i s t) (hinv : s.Inv) : t.Inv := by
  cases h with
  | decode => exact hinv.congr (s.setMessage_config _) (s.setMessage_buf _)
  | frozen | fault | compute | validate => exact hinv.congr rfl rfl
  | encode => exact hinv.encoded

theorem PerformNext.inv {t : Transaction} {s u : State} (h : PerformNext t s u) (hinv : s.Inv) : u.Inv := by
  cases h with
  | quiet | fault => exact hinv.congr rfl rfl
  | command c i w ht hd he hx => exact ((exec_next hx).inv hinv).congr rfl rfl
  | register r v w ht hr he hv =>
    obtain ⟨hconfig, -, -, hbuf, -, -⟩ := State.writeReg?_frame hv
    exact hinv.congr hconfig hbuf
  | byte a b ht he ha => exact (hinv.setBufByte ha b).congr rfl rfl

theorem deliver_inv {e : Event} {s t : State} (h : deliver e s = .next t) (hinv : s.Inv) : t.Inv := by
  cases e with
  | transaction w => exact (perform_next h).inv hinv
  | reset =>
    cases h
    exact ⟨hinv.1, List.Pairwise.nil, fun _ hc => nomatch hc⟩

/-! ### A step -/

/-- A step delivers the oldest pending event (00_scope R8). -/
theorem step_of_pending_cons {s : State} {e : Event} {rest : List Event} (h : s.pending = e :: rest) :
    step s = deliver e (s.withPending rest) := by
  simp only [step, advance, h]
  rfl

/-- With nothing pending a step does nothing (70_reset R161). -/
theorem step_of_pending_nil {s : State} (h : s.pending = []) : step s = .next s := by
  simp only [step, advance, h]

/-- What a step does when it answers: nothing, or the delivery of one event. -/
theorem step_cases {s t : State} (h : step s = .next t) :
    t = s ∨ ∃ e rest, deliver e (s.withPending rest) = .next t := by
  cases hp : s.pending with
  | nil =>
    rw [step_of_pending_nil hp] at h
    cases h
    exact .inl rfl
  | cons e rest => exact .inr ⟨e, rest, step_of_pending_cons hp ▸ h⟩

end Sys2Proof.Machine
end

section
/-! PROOFS. The statements about the invariant and the parameters (00_scope section 4, 10_state sections 6 and
10). -/

namespace Sys2Proof.Machine

/-- Settles O45: a step delivers at most one event, and every event keeps the invariant. -/
theorem stepKeepsInvariant : Obligations.StepKeepsInvariant := by
  unfold Obligations.StepKeepsInvariant
  intro s t hinv h
  obtain rfl | ⟨e, rest, h⟩ := step_cases h
  · exact hinv
  · have hpending : (s.withPending rest).Inv := hinv.congr rfl rfl
    exact deliver_inv h hpending

/-- Settles O46: BUF is empty after reset. -/
theorem resetMeetsInvariant : Obligations.ResetMeetsInvariant := by
  unfold Obligations.ResetMeetsInvariant
  decide

/-- Settles O47: a step delivers at most one event, and no event changes the parameters. -/
theorem parametersNeverChange : Obligations.ParametersNeverChange := by
  unfold Obligations.ParametersNeverChange
  intro s t h
  obtain rfl | ⟨e, rest, h⟩ := step_cases h
  · rfl
  · exact deliver_config (s := s.withPending rest) h

end Sys2Proof.Machine
end

section
/-! SUPPORT. Every event is answered where BUF has room for a message (00_scope section 5), and a command byte that
decodes runs its command in every state. -/

namespace Sys2Proof.Machine

/-- Without the unit its commands raise IllegalCommand (30_encoding R75; log entry 12). -/
theorem exec_of_absent {s : State} {i : Instr} (he : s.err = none) (hs : s.config.hasSerdes = false)
    (hi : i ≠ .compute) : exec i s = .next { s with err := some .illegalCommand } := by
  cases i with
  | compute => exact absurd rfl hi
  | validate =>
    rw [exec, execValidate, State.unlessFaulted_of_none _ _ he, State.withSerdes_of_false _ _ hs,
      State.raise_of_none _ _ he]
  | encode =>
    rw [exec, execEncode, State.unlessFaulted_of_none _ _ he, State.withSerdes_of_false _ _ hs,
      State.raise_of_none _ _ he]
  | decode =>
    rw [exec, execDecode, State.unlessFaulted_of_none _ _ he, State.withSerdes_of_false _ _ hs,
      State.raise_of_none _ _ he]

/-- COMPUTE completes in an engine that is not faulted: with a result or with LenRange. -/
theorem exists_exec_compute {s : State} (he : s.err = none) : ∃ t, exec .compute s = .next t := by
  obtain hl | hl := le_or_gt s.len.toNat s.config.bufBytes
  · exact ⟨_, exec_compute_of_le he hl⟩
  · exact ⟨_, exec_compute_of_gt he hl⟩

/-- Every command completes with legal parameters. -/
theorem exists_exec {s : State} (hwf : s.config.wf) (i : Instr) : ∃ t, exec i s = .next t := by
  cases he : s.err with
  | some f => exact ⟨s, exec_of_faulted he i⟩
  | none =>
    cases hs : s.config.hasSerdes with
    | false =>
      by_cases hi : i = .compute
      · subst hi
        exact exists_exec_compute he
      · exact ⟨_, exec_of_absent he hs hi⟩
    | true =>
      have hready : s.SerdesReady := ⟨he, hwf, hs⟩
      cases i with
      | compute => exact exists_exec_compute he
      | validate => exact ⟨_, exec_validate_of_hasSerdes he hs⟩
      | encode => exact ⟨_, exec_encode_of_serdesReady hready⟩
      | decode =>
        obtain hl | hl := le_or_gt 12 s.len.toNat
        · exact ⟨_, exec_decode_of_le hready hl⟩
        · exact ⟨_, exec_decode_of_lt he hs hl⟩

/-- A command byte that decodes runs its command, in a faulted engine too. -/
theorem perform_command_eq_exec {s : State} {c : Byte} {i : Instr} (hd : decode s.config c = .ok i) :
    perform (command c) s = respondWith .done (exec i s) := by
  cases he : s.err with
  | none => exact perform_command_of_ok he hd
  | some f =>
    rw [perform_write_of_faulted rfl he, exec_of_faulted he, respondWith_nextState]
    rfl

/-- Every command byte is answered with legal parameters. -/
theorem exists_perform_command {s : State} (hwf : s.config.wf) (c : Byte) :
    ∃ t, perform (command c) s = .next t := by
  cases hd : decode s.config c with
  | ok i =>
    obtain ⟨t, ht⟩ := exists_exec hwf i
    exact ⟨t.respond .done, by rw [perform_command_eq_exec hd, ht, respondWith_nextState]⟩
  | error e =>
    cases he : s.err with
    | none => exact ⟨_, perform_command_of_error he hd⟩
    | some f => exact ⟨_, perform_write_of_faulted rfl he⟩

/-- Every read is answered, with any parameters. -/
theorem exists_perform_of_read {t : Transaction} (ht : t.isWrite = false) (s : State) :
    ∃ u, perform t s = .next u := by
  cases t with
  | regRead r =>
    cases hr : s.readReg? r with
    | some v => exact ⟨_, perform_regRead_of_some hr⟩
    | none => exact ⟨_, perform_regRead_of_none hr⟩
  | bufRead a =>
    obtain ha | ha := lt_or_ge a s.config.bufBytes
    · exact ⟨_, perform_bufRead_inside ha⟩
    · exact ⟨_, perform_bufRead_outside ha⟩
  | regWrite | bufWrite => cases ht

/-- Every transaction is answered with legal parameters. -/
theorem exists_perform {s : State} (hwf : s.config.wf) (t : Transaction) : ∃ u, perform t s = .next u := by
  cases he : s.err with
  | some f =>
    cases ht : t.isWrite with
    | true => exact ⟨_, perform_write_of_faulted ht he⟩
    | false => exact exists_perform_of_read ht s
  | none =>
    cases t with
    | regRead | bufRead => exact exists_perform_of_read rfl s
    | regWrite r v =>
      by_cases hr : r = .cmd
      · subst hr
        exact exists_perform_command hwf v
      · cases hv : s.writeReg? r v with
        | some u => exact ⟨_, perform_regWrite_of_some hr he v hv⟩
        | none => exact ⟨_, perform_regWrite_of_none he hr hv⟩
    | bufWrite a b =>
      obtain ha | ha := lt_or_ge a s.config.bufBytes
      · exact ⟨_, perform_bufWrite_inside he ha b⟩
      · exact ⟨_, perform_bufWrite_outside he ha b⟩

theorem exists_deliver {s : State} (hwf : s.config.wf) (e : Event) : ∃ t, deliver e s = .next t := by
  cases e with
  | transaction t => exact exists_perform hwf t
  | reset => exact ⟨_, rfl⟩

/-- The command word of a command placed in front is its opcode. -/
theorem State.withFetchWord_encode (s : State) (i : Instr) :
    s.withFetchWord 8 (encode i).toNat =
      s.withPending (.transaction (command (encode i)) :: s.pending) := by
  have hbyte : BitVec.ofNat 8 ((encode i).toNat % 2 ^ 8) = encode i := by
    rw [Nat.mod_eq_of_lt (encode i).isLt, BitVec.ofNat_toNat, BitVec.setWidth_eq]
  rw [State.withFetchWord, State.placeCommand, hbyte]
  rfl

end Sys2Proof.Machine
end

section
/-! SUPPORT. A run taken step by step (00_scope R9). -/

namespace Sys2Proof.Machine

@[simp] theorem State.withPending_pending (s : State) (p : List Event) : (s.withPending p).pending = p := rfl

@[simp] theorem State.withPending_withPending (s : State) (p q : List Event) :
    (s.withPending p).withPending q = s.withPending q := rfl

/-- Nothing pending, so nothing to put back. -/
theorem State.withPending_of_pending {s : State} {p : List Event} (h : s.pending = p) : s.withPending p = s := by
  subst h
  rfl

/-- An event leaves the pending events as they are. -/
theorem deliver_pending {e : Event} {s t : State} (h : deliver e s = .next t) : t.pending = s.pending := by
  have hignore := deliver_ignoresPending e s s.pending
  rw [State.withPending_of_pending rfl, h] at hignore
  injection hignore with ht
  rw [ht, State.withPending_pending]

/-- A run goes on from the state its first step answers. -/
theorem run_succ_of_next {s t : State} (k : Nat) (h : step s = .next t) :
    Host.Core.run core (k + 1) s = Host.Core.run core k t := by
  have hcore : core.step s = .next t := h
  simp only [Host.Core.run, hcore]

/-- A run stops where its first step faults. -/
theorem run_succ_of_fault {s : State} (k : Nat) {f : Fault} (h : step s = .fault f) :
    Host.Core.run core (k + 1) s = .fault f := by
  have hcore : core.step s = .fault f := h
  simp only [Host.Core.run, hcore]

/-- A run stops where its first step is refused. -/
theorem run_succ_of_refused {s : State} (k : Nat) {f : Refusal} (h : step s = .refused f) :
    Host.Core.run core (k + 1) s = .refused f := by
  have hcore : core.step s = .refused f := h
  simp only [Host.Core.run, hcore]

/-- A run of events stops where its first event faults. -/
theorem runEvents_cons_of_fault {e : Event} {es : List Event} {s : State} {f : Fault}
    (h : deliver e s = .fault f) : runEvents (e :: es) s = .fault f := by
  simp only [runEvents, h]

/-- A run of events stops where its first event is refused. -/
theorem runEvents_cons_of_refused {e : Event} {es : List Event} {s : State} {f : Refusal}
    (h : deliver e s = .refused f) : runEvents (e :: es) s = .refused f := by
  simp only [runEvents, h]

/-- A step with `e` pending first does what `e` does with nothing pending behind it. -/
theorem step_withPending_cons (s : State) (e : Event) (es : List Event) :
    step (s.withPending (e :: es)) = mapNext (fun u => u.withPending es) (deliver e s) := by
  rw [step_of_pending_cons (State.withPending_pending s (e :: es)), State.withPending_withPending,
    deliver_ignoresPending]

/-- With the events of a run pending, as many steps make of them what the run makes. -/
theorem run_withPending (es : List Event) {s : State} (h : s.pending = []) :
    Host.Core.run core es.length (s.withPending es) = runEvents es s := by
  induction es generalizing s with
  | nil =>
    rw [State.withPending_of_pending h]
    rfl
  | cons e es ih =>
    have hstep := step_withPending_cons s e es
    cases hd : deliver e s with
    | next t =>
      rw [hd] at hstep
      rw [List.length_cons, run_succ_of_next _ hstep, runEvents_cons_of_next hd]
      exact ih ((deliver_pending hd).trans h)
    | fault f =>
      rw [hd] at hstep
      exact (run_succ_of_fault _ hstep).trans (runEvents_cons_of_fault hd).symm
    | refused f =>
      rw [hd] at hstep
      exact (run_succ_of_refused _ hstep).trans (runEvents_cons_of_refused hd).symm

end Sys2Proof.Machine
end

section
/-! PROOFS. The statements about steps, runs and reset (00_scope section 5, 60_exceptions section 6, 70_reset
section 1). -/

namespace Sys2Proof.Machine

/-- Settles O44: with nothing pending a step idles, else it delivers an event, which legal parameters let
complete. -/
theorem everyStepCompletes : Obligations.EveryStepCompletes := by
  unfold Obligations.EveryStepCompletes
  intro s hwf
  cases hp : s.pending with
  | nil => exact ⟨s, step_of_pending_nil hp⟩
  | cons e rest =>
    have hrest : (s.withPending rest).config.wf := hwf
    rw [step_of_pending_cons hp]
    exact exists_deliver hrest e

/-- Settles O43: induction on the list; no event depends on the events behind it. -/
theorem runIsStepByStep : Obligations.RunIsStepByStep := by
  unfold Obligations.RunIsStepByStep
  intro es s h
  exact run_withPending es h

/-- Settles O41: the step delivers the write of CMD, which runs the command its byte decodes to. -/
theorem stepRunsDecodedInstruction : Obligations.StepRunsDecodedInstruction := by
  unfold Obligations.StepRunsDecodedInstruction
  intro s c rest i hp hd
  have hrest : decode (s.withPending rest).config c = .ok i := hd
  rw [step_of_pending_cons hp]
  exact perform_command_eq_exec hrest

/-- Settles O42: the step by what is pending; a command that exists is the one its placed opcode decodes to. -/
theorem stepDeliversOldestEvent : Obligations.StepDeliversOldestEvent := by
  unfold Obligations.StepDeliversOldestEvent
  refine ⟨fun s e rest => step_of_pending_cons, fun s => step_of_pending_nil, fun s i hi => ?_⟩
  rw [State.withFetchWord_encode, step_of_pending_cons (State.withPending_pending s _),
    State.withPending_withPending, State.withPending_of_pending rfl]
  exact perform_command_eq_exec (decode_encode hi)

/-- Settles O38: a faulted engine answers every write unchanged and every read, and keeps its fault; the reset
event is `State.hardReset`. -/
theorem onlyResetLeavesTheFaultedState : Obligations.OnlyResetLeavesTheFaultedState := by
  unfold Obligations.OnlyResetLeavesTheFaultedState
  intro s f he
  refine ⟨fun t => ?_, rfl⟩
  have hcompletes : ∃ u, perform t s = .next u := by
    cases ht : t.isWrite with
    | true => exact ⟨_, perform_write_of_faulted ht he⟩
    | false => exact exists_perform_of_read ht s
  obtain ⟨u, hu⟩ := hcompletes
  exact ⟨u, hu, (perform_next hu).err_of_faulted he⟩

/-- Settles O40: the registers are fields of `State.hardReset`, and BUF is empty there. -/
theorem resetEventGivesResetState : Obligations.ResetEventGivesResetState := by
  unfold Obligations.ResetEventGivesResetState
  intro s
  exact ⟨s.hardReset, rfl, rfl, rfl, rfl, rfl, rfl, rfl, rfl, State.bufByte_of_buf_nil rfl⟩

/-- Settles O58: each of the three commands by its guard on the unit. -/
theorem absentUnitCommandsAreIllegal : Obligations.AbsentUnitCommandsAreIllegal := by
  unfold Obligations.AbsentUnitCommandsAreIllegal
  intro s i he hs hi
  exact exec_of_absent he hs hi

/-- Settles O60: each illegal read as a draw or as an answer without a value; no event lowers the count. -/
theorem illegalReadsAnswerFreshDraws : Obligations.IllegalReadsAnswerFreshDraws := by
  unfold Obligations.IllegalReadsAnswerFreshDraws
  refine ⟨?_, fun s a => perform_bufRead_outside, perform_regRead_unassigned, fun e s t => deliver_draws_le⟩
  rintro s r (rfl | ⟨hr, hs⟩)
  · exact perform_regRead_draw rfl (by decide)
  · have haccess : r.access ≠ .none := by cases r <;> simp [Reg.isMessage, Reg.access] at hr ⊢
    exact perform_regRead_draw (State.readReg?_of_absent hr hs) haccess

end Sys2Proof.Machine
end

section
/-! SUPPORT. The checksum depends on the plain sum of the words only, and how that sum moves with a byte
(40_checksum section 3). -/

namespace Sys2Proof.Machine

/-! ### The end-around residue -/

theorem endAround_eq_zero_iff (t : Nat) : endAround t = 0 ↔ t = 0 := by
  unfold endAround
  split <;> omega

/-- 0xFFFF more changes no residue but that of 0. -/
theorem endAround_add_allOnes {t : Nat} (h : 0 < t) : endAround (t + 0xFFFF) = endAround t := by
  rw [endAround_of_pos h, endAround_of_pos (by omega)]
  omega

/-- A sum and the complement of its residue make 0xFFFF. -/
theorem endAround_add_complement (t : Nat) : endAround (t + (0xFFFF - endAround t)) = 0xFFFF := by
  obtain rfl | ht := t.eq_zero_or_pos
  · rfl
  · rw [endAround_of_pos ht, endAround_of_pos (by omega)]
    omega

/-! ### The accumulator and the checksum by the plain sum -/

theorem ocSum_congr {ws vs : List Half} (h : endAround (wordTotal ws) = endAround (wordTotal vs)) :
    ocSum ws = ocSum vs :=
  BitVec.eq_of_toNat_eq (by rw [ocSum_toNat, ocSum_toNat, h])

theorem ocSum_eq_zero_iff (ws : List Half) : ocSum ws = 0x0000#16 ↔ wordTotal ws = 0 := by
  rw [← BitVec.toNat_inj, ocSum_toNat]
  exact endAround_eq_zero_iff _

theorem compute_toNat_eq (bs : List Byte) :
    (compute bs).toNat = 0xFFFF - endAround (wordTotal (wordsOf bs)) := by
  rw [compute_toNat, ocSum_toNat]

theorem compute_congr {bs cs : List Byte} (h : wordTotal (wordsOf bs) = wordTotal (wordsOf cs)) :
    compute bs = compute cs :=
  BitVec.eq_of_toNat_eq (by rw [compute_toNat_eq, compute_toNat_eq, h])

/-- The closed form as the rule writes it (R102). -/
theorem complement_endAround (t : Nat) :
    0xFFFF - endAround t = if t = 0 then 0xFFFF else 0xFFFE - (t - 1) % 0xFFFF := by
  unfold endAround
  split <;> omega

theorem wordTotal_append (ws vs : List Half) : wordTotal (ws ++ vs) = wordTotal ws + wordTotal vs := by
  simp [wordTotal]

theorem wordTotal_perm {ws vs : List Half} (h : ws.Perm vs) : wordTotal ws = wordTotal vs :=
  (h.map BitVec.toNat).sum_eq

/-! ### The adder -/

theorem ocAdd16_comm (a b : Half) : ocAdd16 a b = ocAdd16 b a :=
  BitVec.eq_of_toNat_eq (by rw [ocAdd16_toNat_eq_endAround, ocAdd16_toNat_eq_endAround, Nat.add_comm])

/-- Both orders give the residue of the sum of all three. -/
theorem ocAdd16_assoc (a b c : Half) : ocAdd16 (ocAdd16 a b) c = ocAdd16 a (ocAdd16 b c) := by
  apply BitVec.eq_of_toNat_eq
  rw [ocAdd16_comm a (ocAdd16 b c)]
  simp only [ocAdd16_toNat_eq_endAround, endAround_endAround_add]
  congr 1
  omega

theorem ocAdd16_zero (a : Half) : ocAdd16 a 0x0000#16 = a := by
  apply BitVec.eq_of_toNat_eq
  rw [ocAdd16_toNat_eq_endAround]
  exact endAround_of_le (Nat.le_of_lt_succ a.isLt)

/-- 0xFFFF is a second zero beside a nonzero value. -/
theorem ocAdd16_allOnes {a : Half} (h : a ≠ 0x0000#16) : ocAdd16 a 0xFFFF#16 = a := by
  have hpos : 0 < a.toNat := Nat.pos_of_ne_zero fun h0 => h (BitVec.eq_of_toNat_eq h0)
  apply BitVec.eq_of_toNat_eq
  rw [ocAdd16_toNat_eq_endAround]
  exact (endAround_add_allOnes hpos).trans (endAround_of_le (Nat.le_of_lt_succ a.isLt))

/-! ### The plain sum by bytes -/

/-- What a byte at offset `i` weighs in the plain sum: it is the high byte of its word at an even offset, the low
one at an odd offset (R91). -/
def byteWeight (i : Nat) : Nat := if i % 2 = 0 then 256 else 1

@[simp] theorem byteWeight_zero : byteWeight 0 = 256 := rfl

@[simp] theorem byteWeight_one : byteWeight 1 = 1 := rfl

theorem byteWeight_add_two (i : Nat) : byteWeight (i + 2) = byteWeight i := by
  rw [byteWeight, Nat.add_mod_right, byteWeight]

/-- One byte replaced by another moves the plain sum by their difference, weighed. -/
theorem wordTotal_wordsOf_set (bs : List Byte) {i : Nat} (h : i < bs.length) (b : Byte) :
    wordTotal (wordsOf (bs.set i b)) + byteWeight i * bs[i].toNat =
      wordTotal (wordsOf bs) + byteWeight i * b.toNat := by
  induction bs using wordsOf.induct generalizing i with
  | case1 => cases h
  | case2 x =>
    obtain rfl : i = 0 := by simpa using h
    simp only [List.set_cons_zero, List.getElem_cons_zero, wordsOf, wordTotal_cons, wordTotal_nil,
      joinBytes_toNat, byteWeight_zero]
    omega
  | case3 x y rest ih =>
    match i with
    | 0 =>
      simp only [List.set_cons_zero, List.getElem_cons_zero, wordsOf, wordTotal_cons, joinBytes_toNat,
        byteWeight_zero]
      omega
    | 1 =>
      simp only [List.set_cons_succ, List.set_cons_zero, List.getElem_cons_succ, List.getElem_cons_zero, wordsOf,
        wordTotal_cons, joinBytes_toNat, byteWeight_one]
      omega
    | i + 2 =>
      have hrest : i < rest.length := by simpa using h
      have hih := ih hrest
      simp only [List.set_cons_succ, List.getElem_cons_succ, wordsOf, wordTotal_cons, byteWeight_add_two]
      omega

/-- A zero byte behind the others adds nothing: it is a zero word of its own, or the low byte the odd byte's word
has already (R92). -/
theorem wordTotal_wordsOf_append_zero (bs : List Byte) :
    wordTotal (wordsOf (bs ++ [0x00#8])) = wordTotal (wordsOf bs) := by
  induction bs using wordsOf.induct with
  | case1 => rfl
  | case2 b => rfl
  | case3 h l rest ih => simp only [List.cons_append, wordsOf, wordTotal_cons, ih]

theorem compute_append_zero (bs : List Byte) : compute (bs ++ [0x00#8]) = compute bs :=
  compute_congr (wordTotal_wordsOf_append_zero bs)

/-! ### A checksum stored where a zero field was -/

/-- A value stored in a zero field at an even offset, high byte first, adds itself to the plain sum. -/
theorem wordTotal_wordsOf_set_field {bs : List Byte} {k : Nat} (hhi : bs[2 * k]? = some 0x00#8)
    (hlo : bs[2 * k + 1]? = some 0x00#8) (c : Half) :
    wordTotal (wordsOf ((bs.set (2 * k) (hiByte c)).set (2 * k + 1) (loByte c))) =
      wordTotal (wordsOf bs) + c.toNat := by
  obtain ⟨hhi_lt, hhi⟩ := List.getElem?_eq_some_iff.1 hhi
  obtain ⟨hlo_lt, hlo⟩ := List.getElem?_eq_some_iff.1 hlo
  have hset_hi := wordTotal_wordsOf_set bs hhi_lt (hiByte c)
  have hset_lo := wordTotal_wordsOf_set (bs.set (2 * k) (hiByte c)) (by simpa using hlo_lt) (loByte c)
  have heven : byteWeight (2 * k) = 256 := if_pos (by omega)
  have hodd : byteWeight (2 * k + 1) = 1 := if_neg (by omega)
  have hzero : (0x00#8).toNat = 0 := rfl
  rw [List.getElem_set_ne (by omega), hlo, hodd, hzero] at hset_lo
  rw [hhi, heven, hzero] at hset_hi
  have hdigits := hiByte_loByte_toNat c
  omega

/-- A checksum stored in the zero field it was computed with makes the checksum of the whole 0x0000 (R104). -/
theorem compute_set_checksum {bs : List Byte} {k : Nat} (hhi : bs[2 * k]? = some 0x00#8)
    (hlo : bs[2 * k + 1]? = some 0x00#8) :
    compute ((bs.set (2 * k) (hiByte (compute bs))).set (2 * k + 1) (loByte (compute bs))) = 0x0000#16 := by
  apply BitVec.eq_of_toNat_eq
  rw [compute_toNat_eq, wordTotal_wordsOf_set_field hhi hlo, compute_toNat_eq, endAround_add_complement]
  rfl

end Sys2Proof.Machine
end

section
/-! PROOFS. The statements about the checksum of byte sequences (40_checksum sections 1 and 3). -/

namespace Sys2Proof.Machine

/-- Settles O7: the complement of the residue; a residue is 0 for the sum 0 only. -/
theorem checksumClosedForm : Obligations.ChecksumClosedForm := by
  unfold Obligations.ChecksumClosedForm
  refine ⟨fun bs => ?_, fun ws vs h => ?_⟩
  · rw [compute_toNat_eq, complement_endAround]
  · rw [Ne, ocSum_eq_zero_iff] at h ⊢
    rw [wordTotal_append]
    omega

/-- Settles O8: a permutation keeps the plain sum; the adder's laws are those of the residue. -/
theorem wordOrderDoesNotMatter : Obligations.WordOrderDoesNotMatter := by
  unfold Obligations.WordOrderDoesNotMatter
  refine ⟨fun ws vs h => ocSum_congr (by rw [wordTotal_perm h]), ocAdd16_comm, ocAdd16_assoc, ocAdd16_zero,
    fun a => ocAdd16_allOnes, by decide, ?_⟩
  exact ⟨0x01#8, 0x00#8, by decide⟩

/-- Settles O9: the stored checksum adds the complement of the residue to the plain sum. -/
theorem sealedSequenceSumsToZero : Obligations.SealedSequenceSumsToZero := by
  unfold Obligations.SealedSequenceSumsToZero
  intro bs k hhi hlo
  exact compute_set_checksum hhi hlo

/-- Settles O10: a zero byte adds nothing to the plain sum, and two are one after the other. -/
theorem zeroPaddingKeepsChecksum : Obligations.ZeroPaddingKeepsChecksum := by
  unfold Obligations.ZeroPaddingKeepsChecksum
  refine ⟨compute_append_zero, fun bs _ => ?_⟩
  rw [← List.singleton_append (l := [0x00#8]), ← List.append_assoc, compute_append_zero, compute_append_zero]

/-- Settles O11: beside another nonzero word the plain sum is not 0, and 0xFFFF more keeps its residue. -/
theorem zeroAndAllOnesWordsLookAlike : Obligations.ZeroAndAllOnesWordsLookAlike := by
  unfold Obligations.ZeroAndAllOnesWordsLookAlike
  refine ⟨fun before after hother => ?_, by decide, by decide⟩
  have hne : wordTotal (before ++ after) ≠ 0 := by
    obtain ⟨w, hw, hw0⟩ := hother
    exact fun h0 => hw0 ((wordTotal_eq_zero_iff _).1 h0 w hw)
  have hzero : wordTotal (before ++ 0x0000#16 :: after) = wordTotal (before ++ after) := by
    simp [wordTotal_append]
  have hones : wordTotal (before ++ 0xFFFF#16 :: after) = wordTotal (before ++ after) + 0xFFFF := by
    simp [wordTotal_append]
    omega
  exact ocSum_congr (by rw [hzero, hones, endAround_add_allOnes (Nat.pos_of_ne_zero hne)])

/-- Settles O6: at most one word, which is its own residue. -/
theorem shortSequences : Obligations.ShortSequences := by
  unfold Obligations.ShortSequences
  have hpair : ∀ h l : Byte, (compute [h, l]).toNat = 0xFFFF - (256 * h.toNat + l.toNat) := by
    intro h l
    have hword : (joinBytes h l).toNat ≤ 0xFFFF := Nat.le_of_lt_succ (joinBytes h l).isLt
    rw [compute_toNat_eq, wordsOf, wordsOf, wordTotal_cons, wordTotal_nil, Nat.add_zero,
      endAround_of_le hword, joinBytes_toNat]
  refine ⟨compute_nil, fun b => ?_, hpair⟩
  rw [← compute_append_zero]
  exact hpair b 0x00#8

end Sys2Proof.Machine
end

section
/-! PROOFS. The statements about the opcode map (30_encoding sections 2 and 4) and the register table (10_state
section 2). -/

namespace Sys2Proof.Machine

/-- Settles O15: one direction by the opcode map's rows, the other by the opcode of a command that exists. -/
theorem opcodeMapIsExact : Obligations.OpcodeMapIsExact := by
  unfold Obligations.OpcodeMapIsExact
  intro c op i
  constructor
  · exact eq_encode_and_wellFormed_of_decode
  · rintro ⟨rfl, hwf⟩
    exact decode_encode hwf

/-- Settles O16: the six words decoded. -/
theorem opcodeWordsDecode : Obligations.OpcodeWordsDecode := by
  unfold Obligations.OpcodeWordsDecode
  decide

/-- Settles O18: the rows are the definitions', the numbers a bijection, and each access is decided by the
register's row and the unit. -/
theorem registerMapMatchesAccessColumn : Obligations.RegisterMapMatchesAccessColumn := by
  unfold Obligations.RegisterMapMatchesAccessColumn
  refine ⟨?_, ?_, ?_, ?_, ?_, ?_, ?_, ?_, ?_, ?_, fun k => ⟨Reg.number_unassigned_toNat k, rfl⟩,
    Reg.isMessage_iff, Reg.number_ofNumber, Reg.ofNumber_number, State.isSome_readReg?_iff,
    State.isSome_writeReg?_iff⟩ <;>
    exact ⟨rfl, rfl, rfl⟩

end Sys2Proof.Machine
end

section
/-! SUPPORT. Which events can change which part of the state (10_state sections 3 to 6). -/

namespace Sys2Proof.Machine

/-- The command byte of a transaction that ran the command `i` is the opcode of `i`. -/
theorem transaction_eq_command {t : Transaction} {c : Byte} {cfg : Config} {i : Instr}
    (ht : t = .regWrite .cmd c) (hd : decode cfg c = .ok i) : t = command (encode i) := by
  rw [ht, (eq_encode_and_wellFormed_of_decode hd).1]

/-! ### Commands -/

theorem ExecNext.valid_eq {i : Instr} {s t : State} (h : ExecNext i s t) (hi : i ≠ .validate) :
    t.valid = s.valid := by
  cases h with
  | validate hv => exact absurd hv hi
  | decode => exact State.setMessage_valid s _
  | frozen | fault | compute | encode => rfl

theorem ExecNext.result_eq {i : Instr} {s t : State} (h : ExecNext i s t) (hi : i ≠ .compute) :
    t.result = s.result := by
  cases h with
  | compute hc => exact absurd hc hi
  | decode => exact State.setMessage_result s _
  | frozen | fault | validate | encode => rfl

theorem ExecNext.len_eq {i : Instr} {s t : State} (h : ExecNext i s t) (hi : i ≠ .encode) : t.len = s.len := by
  cases h with
  | encode he => exact absurd he hi
  | decode => exact State.setMessage_len s _
  | frozen | fault | compute | validate => rfl

theorem ExecNext.message_eq {i : Instr} {s t : State} (h : ExecNext i s t) (hi : i ≠ .decode) :
    t.message = s.message := by
  cases h with
  | decode hd => exact absurd hd hi
  | frozen | fault | compute | validate | encode => rfl

theorem ExecNext.bufByte_eq {i : Instr} {s t : State} (h : ExecNext i s t) {a : Nat}
    (ha : i ≠ .encode ∨ 12 ≤ a) : t.bufByte a = s.bufByte a := by
  cases h with
  | encode hi =>
    have hlt : ¬ a < 12 := not_lt.2 (ha.resolve_left fun hne => hne hi)
    exact (s.bufByte_encoded a).trans (dif_neg hlt)
  | decode => exact State.bufByte_congr (s.setMessage_buf _) (s.setMessage_resets _) a
  | frozen | fault | compute | validate => exact State.bufByte_congr rfl rfl a

/-! ### Register writes -/

/-- A register write changes LEN only if it is one to LEN. -/
theorem State.writeReg?_len {s t : State} {r : Reg} {v : BitVec r.width} (h : s.writeReg? r v = some t)
    (hr : r ≠ .len) : t.len = s.len := by
  cases r with
  | len => exact absurd rfl hr
  | cmd | status | result | unassigned => cases h
  | mtype | mcode | mcsum | mident | mseq | mpayload =>
    simp only [State.writeReg?] at h
    split at h
    · cases h; rfl
    · cases h

/-- A register write changes the message only if it is one to a message register. -/
theorem State.writeReg?_message {s t : State} {r : Reg} {v : BitVec r.width} (h : s.writeReg? r v = some t)
    (hr : r.isMessage ≠ true) : t.message = s.message := by
  cases r with
  | len => cases h; rfl
  | cmd | status | result | unassigned => cases h
  | mtype | mcode | mcsum | mident | mseq | mpayload => exact absurd rfl hr

/-! ### Transactions -/

theorem PerformNext.valid_eq {t : Transaction} {s u : State} (h : PerformNext t s u)
    (ht : t ≠ Machine.command (encode .validate)) : u.valid = s.valid := by
  cases h with
  | quiet | fault | byte => rfl
  | command c i w hc hd he hx =>
    have hi : i ≠ .validate := fun hi => ht (hi ▸ transaction_eq_command hc hd)
    exact (exec_next hx).valid_eq hi
  | register r v w hw hr he hv =>
    obtain ⟨-, -, hvalid, -⟩ := State.writeReg?_frame hv
    exact hvalid

theorem PerformNext.result_eq {t : Transaction} {s u : State} (h : PerformNext t s u)
    (ht : t ≠ Machine.command (encode .compute)) : u.result = s.result := by
  cases h with
  | quiet | fault | byte => rfl
  | command c i w hc hd he hx =>
    have hi : i ≠ .compute := fun hi => ht (hi ▸ transaction_eq_command hc hd)
    exact (exec_next hx).result_eq hi
  | register r v w hw hr he hv =>
    obtain ⟨-, hresult, -⟩ := State.writeReg?_frame hv
    exact hresult

theorem PerformNext.len_eq {t : Transaction} {s u : State} (h : PerformNext t s u)
    (ht : t ≠ Machine.command (encode .encode)) (hlen : ∀ v, t ≠ .regWrite .len v) :
    u.len = s.len := by
  cases h with
  | quiet | fault | byte => rfl
  | command c i w hc hd he hx =>
    have hi : i ≠ .encode := fun hi => ht (hi ▸ transaction_eq_command hc hd)
    exact (exec_next hx).len_eq hi
  | register r v w hw hr he hv =>
    have hne : r ≠ .len := by rintro rfl; exact hlen v hw
    have hlen : w.len = s.len := State.writeReg?_len hv hne
    exact hlen

theorem PerformNext.message_eq {t : Transaction} {s u : State} (h : PerformNext t s u)
    (ht : t ≠ Machine.command (encode .decode))
    (hmessage : ∀ r v, r.isMessage = true → t ≠ .regWrite r v) : u.message = s.message := by
  cases h with
  | quiet | fault | byte => rfl
  | command c i w hc hd he hx =>
    have hi : i ≠ .decode := fun hi => ht (hi ▸ transaction_eq_command hc hd)
    exact (exec_next hx).message_eq hi
  | register r v w hw hr he hv =>
    have hw : w.message = s.message := State.writeReg?_message hv fun hmem => hmessage r v hmem hw
    exact hw

theorem PerformNext.bufByte_eq {t : Transaction} {s u : State} (h : PerformNext t s u) {a : Nat}
    (ht : t ≠ Machine.command (encode .encode) ∨ 12 ≤ a) (hbyte : ∀ b, t ≠ .bufWrite a b) :
    u.bufByte a = s.bufByte a := by
  cases h with
  | quiet | fault => exact State.bufByte_congr rfl rfl a
  | command c i w hc hd he hx =>
    have hi : i ≠ .encode ∨ 12 ≤ a := ht.imp_left fun hne hi => hne (hi ▸ transaction_eq_command hc hd)
    exact (exec_next hx).bufByte_eq hi
  | register r v w hw hr he hv =>
    obtain ⟨-, -, -, hbuf, hresets, -⟩ := State.writeReg?_frame hv
    exact State.bufByte_congr hbuf hresets a
  | byte c b hw he hc =>
    have hne : a ≠ c := by rintro rfl; exact hbyte b hw
    rw [State.bufByte_respond, State.bufByte_setBufByte, if_neg hne]

end Sys2Proof.Machine
end

section
/-! PROOFS. The statements about which events change which part of the state (10_state sections 3 to 6). -/

namespace Sys2Proof.Machine

/-- Settles O48: no transaction but the command's write changes the field; the event is reset otherwise. -/
theorem onlyTheirCommandsWriteValidAndResult : Obligations.OnlyTheirCommandsWriteValidAndResult := by
  unfold Obligations.OnlyTheirCommandsWriteValidAndResult
  intro e s t h
  cases e with
  | reset => exact ⟨fun _ => .inl rfl, fun _ => .inl rfl⟩
  | transaction w =>
    have hnext : PerformNext w s t := perform_next h
    refine ⟨fun hvalid => .inr ?_, fun hresult => .inr ?_⟩
    · by_contra hne
      exact hvalid (hnext.valid_eq fun hw => hne (congrArg Event.transaction hw))
    · by_contra hne
      exact hresult (hnext.result_eq fun hw => hne (congrArg Event.transaction hw))

/-- Settles O49: no transaction but the command's write and a write of the register changes the field. -/
theorem writersOfLenAndMessageRegisters : Obligations.WritersOfLenAndMessageRegisters := by
  unfold Obligations.WritersOfLenAndMessageRegisters
  intro e s t h
  cases e with
  | reset => exact ⟨fun _ => .inl rfl, fun _ => .inl rfl⟩
  | transaction w =>
    have hnext : PerformNext w s t := perform_next h
    refine ⟨fun hlen => .inr ?_, fun hmessage => .inr ?_⟩
    · by_contra hne
      obtain ⟨hcommand, hwrite⟩ := not_or.1 hne
      exact hlen (hnext.len_eq (fun hw => hcommand (congrArg Event.transaction hw))
        fun v hw => hwrite ⟨v, congrArg Event.transaction hw⟩)
    · by_contra hne
      obtain ⟨hcommand, hwrite⟩ := not_or.1 hne
      exact hmessage (hnext.message_eq (fun hw => hcommand (congrArg Event.transaction hw))
        fun r v hr hw => hwrite ⟨r, v, hr, congrArg Event.transaction hw⟩)

/-- Settles O50: no transaction but ENCODE's write, below offset 12, and a BufWrite there changes the byte. -/
theorem writersOfBufferBytes : Obligations.WritersOfBufferBytes := by
  unfold Obligations.WritersOfBufferBytes
  intro e s t a h hchanged
  cases e with
  | reset => exact .inl rfl
  | transaction w =>
    have hnext : PerformNext w s t := perform_next h
    by_contra hne
    obtain ⟨-, hne⟩ := not_or.1 hne
    obtain ⟨hencode, hwrite⟩ := not_or.1 hne
    have hcommand : w ≠ command (encode .encode) ∨ 12 ≤ a :=
      or_iff_not_imp_right.2 fun ha hw => hencode ⟨congrArg Event.transaction hw, not_le.1 ha⟩
    exact hchanged (hnext.bufByte_eq hcommand fun b hw => hwrite ⟨b, congrArg Event.transaction hw⟩)

end Sys2Proof.Machine
end

section
/-! SUPPORT. A read after a write, and a write applied twice (20_memory sections 5 and 7). -/

namespace Sys2Proof.Machine

/-! ### Read after write -/

/-- A register reads back what was written to it. -/
theorem State.readReg?_writeReg?_self {s t : State} {r : Reg} {v : BitVec r.width}
    (h : s.writeReg? r v = some t) : t.readReg? r = some v := by
  cases r with
  | len => cases h; rfl
  | cmd | status | result | unassigned => cases h
  | mtype | mcode | mcsum | mident | mseq | mpayload =>
    simp only [State.writeReg?] at h
    split at h
    · next hs => cases h; exact if_pos hs
    · cases h

/-- A run of two transactions that both answer. -/
theorem runEvents_pair {t w : Transaction} {s u v : State} (ht : perform t s = .next u)
    (hw : perform w u = .next v) : runEvents [.transaction t, .transaction w] s = .next v := by
  rw [runEvents_cons_of_next (e := .transaction t) ht, runEvents_cons_of_next (e := .transaction w) hw,
    runEvents_nil]

/-! ### BUF written twice -/

/-- A byte written twice stands where it stood. -/
theorem Memory.insert_insert_self (m : Memory) (a : Nat) (b : Byte) :
    Memory.insert (Memory.insert m a b) a b = Memory.insert m a b := by
  induction m with
  | nil => simp [Memory.insert]
  | cons c m ih =>
    obtain ⟨k, v⟩ := c
    obtain h | rfl | h := lt_trichotomy a k
    · simp [Memory.insert, h]
    · simp [Memory.insert]
    · simp [Memory.insert, h.not_gt, h.ne', ih]

/-- In canonical form the entries are exactly what `lookup` finds. -/
theorem Memory.mem_iff_lookup {m : Memory} (h : Memory.wf m) (a : Nat) (b : Byte) :
    (a, b) ∈ m ↔ Memory.lookup m a = some b := by
  induction m with
  | nil => simp [Memory.lookup]
  | cons c m ih =>
    obtain ⟨k, v⟩ := c
    obtain ⟨hk, hm⟩ := List.pairwise_cons.1 h
    by_cases hka : k = a
    · subst hka
      have hnot : (k, b) ∉ m := fun hmem => lt_irrefl k (hk _ hmem)
      simp [Memory.lookup, hnot, eq_comm]
    · simp [Memory.lookup, hka, Ne.symm hka, ih hm]

/-- In canonical form two memories with the same byte at every offset are the same. -/
theorem Memory.ext_of_wf {m n : Memory} (hm : Memory.wf m) (hn : Memory.wf n)
    (h : ∀ a, Memory.lookup m a = Memory.lookup n a) : m = n := by
  have hirrefl : Std.Irrefl fun x y : Host.Cell => x.1 < y.1 := ⟨fun x => lt_irrefl x.1⟩
  have hantisymm : Std.Antisymm fun x y : Host.Cell => x.1 < y.1 :=
    ⟨fun x y hxy hyx => absurd hyx hxy.not_gt⟩
  refine List.Pairwise.eq_of_mem_iff hm hn fun ⟨a, b⟩ => ?_
  rw [Memory.mem_iff_lookup hm, Memory.mem_iff_lookup hn, h]

/-- Bytes written twice stand where they stood. -/
theorem Memory.insertBytes_insertBytes_self {m : Memory} (h : Memory.wf m) (a : Nat) (bs : List Byte) :
    Memory.insertBytes (Memory.insertBytes m a bs) a bs = Memory.insertBytes m a bs := by
  have hw := Memory.wf_insertBytes h a bs
  refine Memory.ext_of_wf (Memory.wf_insertBytes hw a bs) hw fun c => ?_
  simp only [Memory.lookup_insertBytes]
  split <;> rfl

/-! ### Writes and commands applied again -/

/-- A register written again, once answered, holds what it held. -/
theorem State.writeReg?_respond_self {s t : State} {r : Reg} {v : BitVec r.width}
    (h : s.writeReg? r v = some t) (a : Response) : (t.respond a).writeReg? r v = some (t.respond a) := by
  cases r with
  | len => cases h; rfl
  | cmd | status | result | unassigned => cases h
  | mtype | mcode | mcsum | mident | mseq | mpayload =>
    simp only [State.writeReg?] at h
    split at h
    · next hs => cases h; exact if_pos hs
    · cases h

/-- Answering changes no register the host reads. -/
theorem State.readReg?_respond (s : State) (a : Response) (r : Reg) :
    (s.respond a).readReg? r = s.readReg? r := by
  cases r <;> rfl

/-- ENCODE writes the bytes and the length it has written already. -/
theorem State.encoded_respond_encoded {s : State} (h : Memory.wf s.buf) (a : Response) :
    (s.encoded.respond a).encoded = s.encoded.respond a := by
  have hbuf := Memory.insertBytes_insertBytes_self h 0 (encodeMessage s.message).toList
  unfold State.encoded State.respond
  simp only [State.mk.injEq, true_and, and_true]
  exact hbuf

/-- DECODE changes nothing where the message registers hold the message in BUF already. -/
theorem exec_decode_of_message_eq {s : State} (h : s.SerdesReady) (hl : 12 ≤ s.len.toNat)
    (hm : decodeMessage s.wireBytes = s.message) : exec .decode s = .next s := by
  rw [exec_decode_of_le h hl, hm, State.setMessage_message]

/-- A command run again, once answered, changes nothing more. -/
theorem ExecNext.exec_respond {i : Instr} {s t : State} (h : ExecNext i s t) (hinv : s.Inv) (a : Response) :
    exec i (t.respond a) = .next (t.respond a) := by
  obtain ⟨hwf, hcanon, -⟩ := hinv
  cases h with
  | frozen f he => exact exec_of_faulted (s := s.respond a) he i
  | fault f => exact exec_of_faulted (f := f) rfl i
  | compute hi he hl =>
    subst hi
    rw [State.toList_ofFn_bufByte, exec_compute_of_le]
    · rfl
    · exact he
    · exact hl
  | validate hi he hs =>
    subst hi
    rw [exec_validate_of_hasSerdes]
    · rfl
    · exact he
    · exact hs
  | encode hi he hs =>
    subst hi
    have hready : (s.encoded.respond a).SerdesReady := ⟨he, hwf, hs⟩
    have hagain := exec_encode_of_serdesReady hready
    rw [State.encoded_respond_encoded hcanon] at hagain
    exact hagain
  | decode hi he hs hb hl =>
    subst hi
    rw [State.ofFn_bufByte_eq_wireBytes]
    generalize hm : decodeMessage s.wireBytes = m
    have hready : ((s.setMessage m).respond a).SerdesReady := ⟨he, hwf, hs⟩
    have hheld : decodeMessage ((s.setMessage m).respond a).wireBytes = ((s.setMessage m).respond a).message := hm
    exact exec_decode_of_message_eq hready hl hheld

/-- A write that answered, applied again, changes nothing more (20_memory R58). -/
theorem PerformNext.perform_again {w : Transaction} {s t : State} (h : PerformNext w s t) (hinv : s.Inv)
    (hw : w.isWrite = true) : perform w t = .next t := by
  cases h with
  | quiet r d hd hquiet =>
    obtain ⟨herr, rfl, rfl⟩ := hquiet hw
    obtain ⟨f, he⟩ := Option.ne_none_iff_exists'.1 herr
    exact perform_write_of_faulted (f := f) hw he
  | fault f r d hd he hfault =>
    obtain ⟨rfl, rfl⟩ := hfault hw
    exact perform_write_of_faulted (f := f) hw rfl
  | command c i u ht hd he hx =>
    subst ht
    have hnext := exec_next hx
    have hagain : decode (u.respond .done).config c = .ok i := by
      rw [State.respond_config, hnext.config_eq, hd]
    rw [perform_command_eq_exec hagain, hnext.exec_respond hinv]
    rfl
  | register r v u ht hr he hv =>
    subst ht
    have hnone : (u.respond .done).err = none := (State.err_of_writeReg?_eq_some hv).trans he
    have hagain := State.writeReg?_respond_self hv .done
    exact perform_regWrite_of_some (t := u.respond .done) hr hnone v hagain
  | byte a b ht he ha =>
    subst ht
    have hagain : ((s.setBufByte a b).respond .done).setBufByte a b = (s.setBufByte a b).respond .done := by
      simp only [State.setBufByte, State.respond, Memory.insert_insert_self]
    rw [perform_bufWrite_inside (s := (s.setBufByte a b).respond .done) he ha b, hagain]
    rfl

end Sys2Proof.Machine
end

section
/-! PROOFS. The statements about writes, commands and the reads after them (20_memory sections 5 and 7). -/

namespace Sys2Proof.Machine

/-- Settles O34: a legal write and its read by the register, a BufWrite and its read by the offset. -/
theorem readAfterWriteReturnsTheValue : Obligations.ReadAfterWriteReturnsTheValue := by
  unfold Obligations.ReadAfterWriteReturnsTheValue
  intro s he
  refine ⟨fun r v hlegal => ?_, fun a b ha => ?_⟩
  · obtain ⟨t, ht⟩ := Option.isSome_iff_exists.1 hlegal
    have hr : r ≠ .cmd := by rintro rfl; cases ht
    have hread : (t.respond .done).readReg? r = some v := by
      rw [State.readReg?_respond, State.readReg?_writeReg?_self ht]
    exact ⟨_, runEvents_pair (perform_regWrite_of_some hr he v ht) (perform_regRead_of_some hread), rfl⟩
  · refine ⟨_, runEvents_pair (perform_bufWrite_inside he ha b) (perform_bufRead_inside ha), ?_⟩
    simp only [State.bufByte_respond, State.bufByte_setBufByte, if_true]

/-- Settles O35: everything a write can do, done again. -/
theorem writesAndCommandsAreIdempotent : Obligations.WritesAndCommandsAreIdempotent := by
  unfold Obligations.WritesAndCommandsAreIdempotent
  intro w s t hinv hw h
  exact (perform_next h).perform_again hinv hw

end Sys2Proof.Machine
end

section
/-! SUPPORT. Without the optional unit no transaction depends on the message registers (00_scope R6). -/

namespace Sys2Proof.Machine

theorem State.readReg?_setMessage {s : State} (hs : s.config.hasSerdes = false) (m : Message) (r : Reg) :
    (s.setMessage m).readReg? r = s.readReg? r := by
  cases r <;> simp [State.readReg?, hs]

theorem State.writeReg?_setMessage {s : State} (hs : s.config.hasSerdes = false) (m : Message) (r : Reg)
    (v : BitVec r.width) :
    (s.setMessage m).writeReg? r v = (s.writeReg? r v).map fun t => t.setMessage m := by
  cases r with
  | len => rfl
  | _ => simp [State.writeReg?, hs]

theorem State.raise_setMessage (s : State) (m : Message) (f : EngineFault) :
    (s.setMessage m).raise f = (s.raise f).setMessage m := by
  rw [State.raise_eq, State.raise_eq]
  rfl

theorem State.respondIllegalRead_setMessage (s : State) (m : Message) (r : Reg) :
    (s.setMessage m).respondIllegalRead r = (s.respondIllegalRead r).setMessage m := by
  cases r <;> rfl

theorem exec_compute_setMessage {s : State} (he : s.err = none) (m : Message) :
    exec .compute (s.setMessage m) = mapNext (fun u => u.setMessage m) (exec .compute s) := by
  have he' : (s.setMessage m).err = none := he
  obtain hl | hl := le_or_gt s.len.toNat s.config.bufBytes
  · rw [exec_compute_of_le he hl, exec_compute_of_le he' hl]
    rfl
  · rw [exec_compute_of_gt he hl, exec_compute_of_gt he' hl]
    rfl

/-- Without the unit the only command that runs is COMPUTE. -/
theorem perform_command_setMessage {s : State} (hs : s.config.hasSerdes = false) (he : s.err = none)
    (m : Message) (c : Byte) :
    perform (command c) (s.setMessage m) = mapNext (fun u => u.setMessage m) (perform (command c) s) := by
  have he' : (s.setMessage m).err = none := he
  cases hd : decode s.config c with
  | error e =>
    have hd' : decode (s.setMessage m).config c = .error e := hd
    rw [perform_command_of_error he hd, perform_command_of_error he' hd']
    rfl
  | ok i =>
    have hd' : decode (s.setMessage m).config c = .ok i := hd
    obtain rfl := Instr.eq_compute_of_wellFormed (eq_encode_and_wellFormed_of_decode hd).2 hs
    obtain ⟨t, ht⟩ := exists_exec_compute he
    have ht' : exec .compute (s.setMessage m) = .next (t.setMessage m) := by
      rw [exec_compute_setMessage he, ht]
      rfl
    rw [perform_command_of_ok he hd, perform_command_of_ok he' hd', ht, ht']
    rfl

/-- Without the unit a transaction treats every value of the message registers alike. -/
theorem perform_setMessage {s : State} (hs : s.config.hasSerdes = false) (m : Message) (t : Transaction) :
    perform t (s.setMessage m) = mapNext (fun u => u.setMessage m) (perform t s) := by
  cases t with
  | regRead r =>
    have hread := State.readReg?_setMessage hs m r
    cases hv : s.readReg? r with
    | some v =>
      rw [perform_regRead_of_some hv, perform_regRead_of_some (hread.trans hv)]
      rfl
    | none =>
      rw [perform_regRead_of_none hv, perform_regRead_of_none (hread.trans hv), State.raise_setMessage,
        State.respondIllegalRead_setMessage]
      rfl
  | bufRead a =>
    obtain ha | ha := lt_or_ge a s.config.bufBytes
    · have ha' : a < (s.setMessage m).config.bufBytes := ha
      rw [perform_bufRead_inside ha, perform_bufRead_inside ha']
      rfl
    · have ha' : (s.setMessage m).config.bufBytes ≤ a := ha
      rw [perform_bufRead_outside ha, perform_bufRead_outside ha']
      rfl
  | regWrite r v =>
    cases he : s.err with
    | some f =>
      have he' : (s.setMessage m).err = some f := he
      rw [perform_write_of_faulted rfl he, perform_write_of_faulted rfl he']
      rfl
    | none =>
      have he' : (s.setMessage m).err = none := he
      by_cases hr : r = .cmd
      · subst hr
        exact perform_command_setMessage hs he m v
      · have hwrite := State.writeReg?_setMessage hs m r v
        cases hv : s.writeReg? r v with
        | some u =>
          rw [hv] at hwrite
          rw [perform_regWrite_of_some hr he v hv, perform_regWrite_of_some hr he' v hwrite]
          rfl
        | none =>
          rw [hv] at hwrite
          rw [perform_regWrite_of_none he hr hv, perform_regWrite_of_none he' hr hwrite]
          rfl
  | bufWrite a b =>
    cases he : s.err with
    | some f =>
      have he' : (s.setMessage m).err = some f := he
      rw [perform_write_of_faulted rfl he, perform_write_of_faulted rfl he']
      rfl
    | none =>
      have he' : (s.setMessage m).err = none := he
      obtain ha | ha := lt_or_ge a s.config.bufBytes
      · have ha' : a < (s.setMessage m).config.bufBytes := ha
        rw [perform_bufWrite_inside he ha, perform_bufWrite_inside he' ha']
        rfl
      · have ha' : (s.setMessage m).config.bufBytes ≤ a := ha
        rw [perform_bufWrite_outside he ha, perform_bufWrite_outside he' ha']
        rfl

end Sys2Proof.Machine
end

section
/-! PROOFS. The statement about the absent optional unit (00_scope section 4). -/

namespace Sys2Proof.Machine

/-- Settles O51: every transaction goes the same way with other message registers, which it does not read. -/
theorem absentUnitHidesMessageRegisters : Obligations.AbsentUnitHidesMessageRegisters := by
  unfold Obligations.AbsentUnitHidesMessageRegisters
  intro t s u m hs h
  rw [perform_setMessage hs, h]
  rfl

end Sys2Proof.Machine
end

section
/-! SUPPORT. The checksum of a message by its fields, a sealed message, and BUF as the place of a message
(40_checksum section 3, 41_serdes section 3). -/

namespace Sys2Proof.Machine

/-! ### The plain sum of a message -/

/-- The words of the wire bytes, field by field. -/
theorem wordsOf_encodeMessage (m : Message) :
    wordsOf (encodeMessage m).toList = [joinBytes m.type m.code, m.checksum, m.identifier, m.sequenceNumber,
      joinBytes (quadByte m.payload 3) (quadByte m.payload 2),
      joinBytes (quadByte m.payload 1) (quadByte m.payload 0)] := by
  simp [encodeMessage, wordsOf]

theorem wordTotal_encodeMessage (m : Message) :
    wordTotal (wordsOf (encodeMessage m).toList) = m.total + m.checksum.toNat := by
  have hpayload : m.payload.toNat < 4294967296 := m.payload.isLt
  rw [wordsOf_encodeMessage]
  simp only [wordTotal_cons, wordTotal_nil, joinBytes_toNat, quadByte_toNat, Message.total]
  omega

/-- A message's checksum is the complement of the residue of its other fields (R102). -/
theorem Message.checksumOf_toNat (m : Message) : m.checksumOf.toNat = 0xFFFF - endAround m.total := by
  rw [Message.checksumOf, compute_toNat_eq, wordTotal_encodeMessage]
  rfl

/-- The words of a valid message add up to a multiple of 0xFFFF. -/
theorem Message.dvd_wordTotal_of_checksumOf_eq {m : Message} (h : m.checksumOf = m.checksum) :
    0xFFFF ∣ wordTotal (wordsOf (encodeMessage m).toList) := by
  rw [wordTotal_encodeMessage, ← h, Message.checksumOf_toNat]
  obtain h0 | hpos := m.total.eq_zero_or_pos
  · rw [h0]
    decide
  · rw [endAround_of_pos hpos]
    omega

/-! ### A sealed message -/

@[simp] theorem Message.sealed_type (m : Message) : m.sealed.type = m.type := rfl

@[simp] theorem Message.sealed_code (m : Message) : m.sealed.code = m.code := rfl

@[simp] theorem Message.sealed_identifier (m : Message) : m.sealed.identifier = m.identifier := rfl

@[simp] theorem Message.sealed_sequenceNumber (m : Message) : m.sealed.sequenceNumber = m.sequenceNumber := rfl

@[simp] theorem Message.sealed_payload (m : Message) : m.sealed.payload = m.payload := rfl

/-- Sealing a message stores its checksum in the zero field of its wire bytes. -/
theorem toList_encodeMessage_sealed (m : Message) :
    (encodeMessage m.sealed).toList =
      ((encodeMessage m.zeroed).toList.set (2 * 1) (hiByte m.checksumOf)).set (2 * 1 + 1) (loByte m.checksumOf) :=
  rfl

/-- The checksum of the wire bytes of a sealed message is 0x0000 (R104). -/
theorem compute_encodeMessage_sealed (m : Message) : compute (encodeMessage m.sealed).toList = 0x0000#16 := by
  have hhi : hiByte 0x0000#16 = 0x00#8 := by decide
  have hlo : loByte 0x0000#16 = 0x00#8 := by decide
  rw [toList_encodeMessage_sealed]
  exact compute_set_checksum (k := 1) (congrArg some hhi) (congrArg some hlo)

/-! ### Two messages whose sequence numbers follow each other -/

theorem Message.total_sequenceNumber_one (m : Message) :
    Message.total { m with sequenceNumber := 1#16 } = Message.total { m with sequenceNumber := 0#16 } + 1 := by
  simp only [Message.total, BitVec.toNat_ofNat]
  omega

/-- Messages whose sums follow each other have different checksums. -/
theorem Message.checksumOf_ne_of_total_succ {m n : Message} (h : n.total = m.total + 1) :
    m.checksumOf ≠ n.checksumOf := by
  intro hsame
  have hresidue := congrArg BitVec.toNat hsame
  have hle := endAround_le m.total
  rw [Message.checksumOf_toNat, Message.checksumOf_toNat, h, endAround_of_pos (Nat.succ_pos _)] at hresidue
  unfold endAround at hresidue hle
  split at hresidue <;> omega

/-- Messages that differ at most in the checksum and in the low byte of the sequence number have the same wire
bytes but at the offsets 2, 3 and 7. -/
theorem getElem_encodeMessage_congr {m n : Message} (htype : m.type = n.type) (hcode : m.code = n.code)
    (hidentifier : m.identifier = n.identifier) (hpayload : m.payload = n.payload)
    (hsequence : hiByte m.sequenceNumber = hiByte n.sequenceNumber) {i : Nat} (h : i < 12) (h2 : i ≠ 2)
    (h3 : i ≠ 3) (h7 : i ≠ 7) : (encodeMessage m)[i] = (encodeMessage n)[i] := by
  simp only [encodeMessage, htype, hcode, hidentifier, hpayload, hsequence]
  match i with
  | 2 => exact absurd rfl h2
  | 3 => exact absurd rfl h3
  | 7 => exact absurd rfl h7
  | 0 | 1 | 4 | 5 | 6 | 8 | 9 | 10 | 11 => rfl

/-! ### The place of a message in BUF -/

theorem State.bufPrefix_twelve (s : State) : s.bufPrefix 12 = s.wireBytes.toList := by
  rw [← State.toList_ofFn_bufByte, State.ofFn_bufByte_eq_wireBytes]

/-- ENCODE leaves the wire bytes of the message registers. -/
theorem State.wireBytes_encoded (s : State) : s.encoded.wireBytes = encodeMessage s.message := by
  ext i hi
  rw [State.getElem_wireBytes _ hi, State.bufByte_encoded, dif_pos hi]

/-- ENCODE of the message in BUF changes no byte of BUF. -/
theorem State.bufByte_encoded_of_message_eq {s : State} (h : s.message = decodeMessage s.wireBytes) (a : Nat) :
    s.encoded.bufByte a = s.bufByte a := by
  rw [State.bufByte_encoded]
  split
  · next ha => simp only [h, encodeMessage_decodeMessage, State.getElem_wireBytes]
  · rfl

end Sys2Proof.Machine
end

section
/-! PROOFS. The statements about single commands (40_checksum sections 2 and 3, 41_serdes sections 2 and 3). -/

namespace Sys2Proof.Machine

/-- Settles O21: COMPUTE reads the bytes below LEN, which are the same. -/
theorem computeReadsOnlyThePrefix : Obligations.ComputeReadsOnlyThePrefix := by
  unfold Obligations.ComputeReadsOnlyThePrefix
  intro s t hs ht hlen hs_le ht_le hbytes
  refine ⟨_, _, exec_compute_of_le hs hs_le, exec_compute_of_le ht ht_le, ?_⟩
  have hprefix : s.bufPrefix s.len.toNat = t.bufPrefix t.len.toNat := by
    rw [← hlen]
    exact List.map_congr_left fun a ha => hbytes a (List.mem_range.1 ha)
  exact congrArg compute hprefix

/-- Settles O23: the closed form of the message's checksum. -/
theorem validMeansWordSumMatches : Obligations.ValidMeansWordSumMatches := by
  unfold Obligations.ValidMeansWordSumMatches
  intro s he hs
  refine ⟨_, exec_validate_of_hasSerdes he hs, ?_⟩
  rw [validFlag_eq_decide, decide_eq_true_iff, ← complement_endAround, ← Message.checksumOf_toNat,
    ← BitVec.toNat_inj, eq_comm]

/-- Settles O26: BUF holds the message of the registers after either command, and each command undoes the other by
the bijection of O14. -/
theorem encodeAndDecodeUndoEachOther : Obligations.EncodeAndDecodeUndoEachOther := by
  unfold Obligations.EncodeAndDecodeUndoEachOther
  intro s hready
  refine ⟨⟨s.encoded, exec_encode_of_serdesReady hready, ?_, rfl⟩, fun hl => ?_⟩
  · have hready' : s.encoded.SerdesReady := hready
    have hheld : decodeMessage s.encoded.wireBytes = s.encoded.message := by
      rw [State.wireBytes_encoded, decodeMessage_encodeMessage]
      rfl
    exact exec_decode_of_message_eq hready' (le_refl 12) hheld
  · have hdecode := exec_decode_of_le hready hl
    generalize hm : decodeMessage s.wireBytes = m at hdecode
    have hready' : (s.setMessage m).SerdesReady := hready
    have hheld : (s.setMessage m).message = decodeMessage (s.setMessage m).wireBytes := hm.symm
    exact ⟨s.setMessage m, (s.setMessage m).encoded, hdecode, exec_encode_of_serdesReady hready', rfl,
      State.bufByte_encoded_of_message_eq hheld⟩

/-- Settles O54: VALIDATE compares the checksum with itself. -/
theorem sealedMessageValidates : Obligations.SealedMessageValidates := by
  unfold Obligations.SealedMessageValidates
  intro s he hs hm
  rw [exec_validate_of_hasSerdes he hs, validFlag_eq_decide, decide_eq_true hm.symm]

/-- Settles O55: COMPUTE runs over the wire bytes of the sealed message. -/
theorem computeOverSealedMessageGivesZero : Obligations.ComputeOverSealedMessageGivesZero := by
  unfold Obligations.ComputeOverSealedMessageGivesZero
  intro s m he hwf hlen hwire
  have htwelve : s.len.toNat = 12 := by rw [hlen]; rfl
  have hroom : s.len.toNat ≤ s.config.bufBytes := htwelve ▸ hwf.1
  rw [exec_compute_of_le he hroom, htwelve, State.bufPrefix_twelve, hwire, compute_encodeMessage_sealed]

/-- Settles O57: the sums of the two messages follow each other, so their residues differ; of the bytes only those
of the two changed fields can. -/
theorem firstTwoProbesDiffer : Obligations.FirstTwoProbesDiffer := by
  unfold Obligations.FirstTwoProbesDiffer
  refine ⟨fun m => ⟨?_, ?_, fun i h h2 h3 h7 => ?_⟩, by decide, by decide⟩
  · exact Message.checksumOf_ne_of_total_succ (Message.total_sequenceNumber_one m)
  · have hbyte : loByte 0#16 ≠ loByte 1#16 := by decide
    exact hbyte
  · have hhi : hiByte 0#16 = hiByte 1#16 := by decide
    exact getElem_encodeMessage_congr (by simp) (by simp) (by simp) (by simp) (by simpa using hhi) h h2 h3 h7

/-- Settles O59: VALIDATE and ENCODE whatever LEN is, DECODE with LEN at least 12, which BUF_BYTES is not below. -/
theorem oversizedLenStopsNoOtherCommand : Obligations.OversizedLenStopsNoOtherCommand := by
  unfold Obligations.OversizedLenStopsNoOtherCommand
  intro s i hready hl hi
  have he := hready.err_eq_none
  have hmin := hready.twelve_le_bufBytes
  cases i with
  | compute => exact absurd rfl hi
  | validate => exact ⟨_, exec_validate_of_hasSerdes he hready.hasSerdes_eq_true, he⟩
  | encode => exact ⟨_, exec_encode_of_serdesReady hready, he⟩
  | decode => exact ⟨_, exec_decode_of_le hready (by omega), he⟩

end Sys2Proof.Machine
end

section
/-! SUPPORT. Listings line by line: a command, a register write and DECODE with VALIDATE after it (30_encoding
section 6). -/

namespace Sys2Proof.Machine

/-! ### One line -/

/-- A listing of one line more. -/
theorem runListing_cons_of_next {l : Line} {ls : List Line} {s t : State} (h : deliver l.event s = .next t) :
    runListing (l :: ls) s = runListing ls t :=
  runEvents_cons_of_next h

@[simp] theorem runListing_nil (s : State) : runListing [] s = .next s := rfl

/-- The line of a command runs it, with the unit. -/
theorem deliver_command {i : Instr} {s t : State} (hs : s.config.hasSerdes = true) (h : exec i s = .next t) :
    deliver (Line.command i).event s = .next (t.respond .done) := by
  have hrun : perform (command (encode i)) s = .next (t.respond .done) := by
    rw [perform_command_eq_exec (decode_encode (Instr.wellFormed_of_hasSerdes hs i)), h, respondWith_nextState]
  exact hrun

/-- The line of a legal read answers the register's value. -/
theorem deliver_rd {s : State} {r : Reg} {v : BitVec r.width} (h : s.readReg? r = some v) :
    deliver (Line.rd r).event s = .next { s with response := some (.value r.width v) } :=
  perform_regRead_of_some h

/-! ### DECODE and VALIDATE -/

/-- The state DECODE and VALIDATE leave: the message of `BUF[0 .. 11]` in the message registers, and VALID telling
whether its checksum is right. -/
def State.checked (s : State) (m : Message) : State :=
  { s.setMessage m with valid := decide (m.checksumOf = m.checksum), response := some .done }

theorem runListing_decode_validate {s : State} (h : s.SerdesReady) (hl : 12 ≤ s.len.toNat) (ls : List Line) :
    runListing (.command .decode :: .command .validate :: ls) s =
      runListing ls (s.checked (decodeMessage s.wireBytes)) := by
  have hdecode := exec_decode_of_le h hl
  generalize decodeMessage s.wireBytes = m at hdecode ⊢
  have he' : ((s.setMessage m).respond .done).err = none := h.err_eq_none
  have hs' : ((s.setMessage m).respond .done).config.hasSerdes = true := h.hasSerdes_eq_true
  rw [runListing_cons_of_next (deliver_command h.hasSerdes_eq_true hdecode),
    runListing_cons_of_next (deliver_command hs' (exec_validate_of_hasSerdes he' hs'))]
  rfl

/-! ### SEAL -/

/-- The state a write of MCSUM leaves. -/
def State.withMcsum (s : State) (c : Half) : State := { s with mcsum := c, response := some .done }

theorem State.message_withMcsum (s : State) (c : Half) :
    (s.withMcsum c).message = { s.message with checksum := c } := rfl

theorem State.bufByte_withMcsum (s : State) (c : Half) (a : Nat) : (s.withMcsum c).bufByte a = s.bufByte a := rfl

theorem State.message_encoded (s : State) : s.encoded.message = s.message := rfl

theorem State.wireBytes_respond (s : State) (a : Response) : (s.respond a).wireBytes = s.wireBytes := rfl

/-- The first two lines and the last two lines of SEAL: MCSUM written, then ENCODE. -/
theorem runListing_wr_mcsum_encode {s : State} (h : s.SerdesReady) (c : Half) (ls : List Line) :
    runListing (.wr .mcsum c :: .command .encode :: ls) s =
      runListing ls ((s.withMcsum c).encoded.respond .done) := by
  have hencode : exec .encode (s.withMcsum c) = .next (s.withMcsum c).encoded := exec_encode_of_serdesReady h
  have hs' : (s.withMcsum c).config.hasSerdes = true := h.hasSerdes_eq_true
  have hwrite : deliver (Line.wr .mcsum c).event s = .next (s.withMcsum c) :=
    perform_regWrite_of_some (r := .mcsum) (by decide) h.err_eq_none c (if_pos h.hasSerdes_eq_true)
  rw [runListing_cons_of_next hwrite, runListing_cons_of_next (deliver_command hs' hencode)]

/-- COMPUTE after ENCODE is the checksum of the wire bytes. -/
theorem exec_compute_encoded {s : State} (h : s.SerdesReady) (a : Response) :
    exec .compute (s.encoded.respond a) =
      .next { s.encoded.respond a with result := compute (encodeMessage s.message).toList } := by
  have hwire : (s.encoded.respond a).wireBytes = encodeMessage s.message := s.wireBytes_encoded
  have hcompute := exec_compute_of_le (s := s.encoded.respond a) h.err_eq_none h.twelve_le_bufBytes
  rw [show (s.encoded.respond a).len.toNat = 12 from rfl, State.bufPrefix_twelve, hwire] at hcompute
  exact hcompute

/-- The state the lines of SEAL up to RD RESULT leave, with the checksum `c` they compute: the wire bytes with a
zero checksum field in BUF, and `c` in RESULT, read by the host. -/
def State.sealOpened (s : State) (c : Half) : State :=
  { (s.withMcsum 0x0000#16).encoded with result := c, response := some (.value 16 c) }

theorem State.message_sealOpened (s : State) (c : Half) : (s.sealOpened c).message = s.message.zeroed := by
  have hencoded : (s.sealOpened c).message = (s.withMcsum 0x0000#16).encoded.message := rfl
  rw [hencoded, State.message_encoded, State.message_withMcsum, Message.zeroed]

theorem State.bufByte_sealOpened (s : State) (c : Half) (a : Nat) :
    (s.sealOpened c).bufByte a = (s.withMcsum 0x0000#16).encoded.bufByte a := rfl

theorem runListing_sealOpen {s : State} (h : s.SerdesReady) :
    runListing sealOpen s = .next (s.sealOpened s.message.checksumOf) := by
  have hready : (s.withMcsum 0x0000#16).SerdesReady := h
  have hs : ((s.withMcsum 0x0000#16).encoded.respond .done).config.hasSerdes = true := h.hasSerdes_eq_true
  have hcompute := exec_compute_encoded hready .done
  have hchecksum : compute (encodeMessage (s.withMcsum 0x0000#16).message).toList = s.message.checksumOf := rfl
  rw [hchecksum] at hcompute
  generalize s.message.checksumOf = c at hcompute ⊢
  rw [sealOpen, runListing_wr_mcsum_encode h, runListing_cons_of_next (deliver_command hs hcompute)]
  rw [runListing_cons_of_next (deliver_rd (r := .result) (v := c) rfl), runListing_nil]
  simp only [State.sealOpened, State.respond]

/-- The state SEAL leaves, with the checksum `c` the host read and wrote to MCSUM. -/
def State.sealClosed (s : State) (c : Half) : State := ((s.sealOpened c).withMcsum c).encoded.respond .done

theorem runListing_sealClose {s : State} (h : s.SerdesReady) (c : Half) :
    runListing (sealClose c) s = .next ((s.withMcsum c).encoded.respond .done) :=
  runListing_wr_mcsum_encode h c []

/-- What SEAL changes beside BUF: MCSUM, RESULT and LEN. -/
theorem State.sealClosed_frame (s : State) (c : Half) :
    s.sealClosed c = { s with
      mcsum := c
      result := c
      len := 12#16
      buf := (s.sealClosed c).buf
      response := some .done } := by
  simp only [State.sealClosed, State.sealOpened, State.withMcsum, State.encoded, State.respond]

/-- SEAL leaves the wire bytes with the checksum the host read. -/
theorem State.wireBytes_sealClosed (s : State) (c : Half) :
    (s.sealClosed c).wireBytes = encodeMessage { s.message with checksum := c } := by
  rw [State.sealClosed, State.wireBytes_respond, State.wireBytes_encoded, State.message_withMcsum,
    State.message_sealOpened, Message.zeroed]

/-- SEAL keeps every byte from offset 12 on: neither ENCODE writes there. -/
theorem State.bufByte_sealClosed (s : State) (c : Half) {a : Nat} (h : 12 ≤ a) :
    (s.sealClosed c).bufByte a = s.bufByte a := by
  have hlt : ¬ a < 12 := not_lt.2 h
  rw [State.sealClosed, State.bufByte_respond, State.bufByte_encoded, dif_neg hlt, State.bufByte_withMcsum,
    State.bufByte_sealOpened, State.bufByte_encoded, dif_neg hlt, State.bufByte_withMcsum]

end Sys2Proof.Machine
end

section
/-! SUPPORT. One changed byte of a valid message (40_checksum R106). -/

namespace Sys2Proof.Machine

/-- The place of a message after one of its bytes is written. -/
theorem State.wireBytes_setBufByte (s : State) {i : Nat} (h : i < 12) (b : Byte) :
    (s.setBufByte i b).wireBytes = s.wireBytes.set i b := by
  ext j hj
  rw [State.getElem_wireBytes _ hj, State.bufByte_setBufByte, Vector.getElem_set, State.getElem_wireBytes _ hj]
  simp only [eq_comm]

/-- A valid message is the wire bytes of which the words add up to a multiple of 0xFFFF. -/
theorem dvd_wordTotal_of_valid {w : Vector Byte 12}
    (h : (decodeMessage w).checksumOf = (decodeMessage w).checksum) : 0xFFFF ∣ wordTotal (wordsOf w.toList) := by
  have hdvd := Message.dvd_wordTotal_of_checksumOf_eq h
  rwa [encodeMessage_decodeMessage] at hdvd

/-- Two different bytes weigh less than 0xFFFF apart, so 12 wire bytes that differ in one byte are not both
valid. -/
theorem checksumOf_ne_of_set {w : Vector Byte 12} {i : Nat} (hi : i < 12) {b : Byte} (hb : b ≠ w[i])
    (h : (decodeMessage w).checksumOf = (decodeMessage w).checksum) :
    (decodeMessage (w.set i b)).checksumOf ≠ (decodeMessage (w.set i b)).checksum := by
  intro hset
  have hdvd := dvd_wordTotal_of_valid h
  have hdvd_set := dvd_wordTotal_of_valid hset
  have hlen : i < w.toList.length := by rwa [Vector.length_toList]
  have hmoved := wordTotal_wordsOf_set w.toList hlen b
  rw [← Vector.toList_set hi, Vector.getElem_toList] at hmoved
  have hne : b.toNat ≠ w[i].toNat := fun heq => hb (BitVec.eq_of_toNat_eq heq)
  have hnew : b.toNat < 256 := b.isLt
  have hold : w[i].toNat < 256 := w[i].isLt
  unfold byteWeight at hmoved
  split at hmoved <;> omega

end Sys2Proof.Machine
end

section
/-! PROOFS. The statements about the two pseudo-commands and about what the checksum detects (30_encoding section
6, 40_checksum section 3). -/

namespace Sys2Proof.Machine

/-- Settles O52: the state each half of SEAL leaves, with the checksum of the message. -/
theorem sealStoresTheChecksum : Obligations.SealStoresTheChecksum := by
  unfold Obligations.SealStoresTheChecksum
  intro s h
  have hready : (s.sealOpened s.message.checksumOf).SerdesReady := h
  exact ⟨s.sealOpened s.message.checksumOf, runListing_sealOpen h, rfl, s.sealClosed s.message.checksumOf,
    runListing_sealClose hready _, s.sealClosed_frame _, s.wireBytes_sealClosed _,
    fun _ => s.bufByte_sealClosed _⟩

/-- Settles O53: the state DECODE and VALIDATE leave, and the read of STATUS in it. -/
theorem checkReportsValidity : Obligations.CheckReportsValidity := by
  unfold Obligations.CheckReportsValidity
  intro s h hl
  have he := h.err_eq_none
  rw [checkLines, runListing_decode_validate h hl]
  generalize decodeMessage s.wireBytes = m
  have hstatus : (s.checked m).readReg? .status = some (statusByte none (decide (m.checksumOf = m.checksum))) :=
    congrArg (fun e => some (statusByte e (decide (m.checksumOf = m.checksum)))) he
  exact runListing_cons_of_next (deliver_rd hstatus)

/-- Settles O56: the bytes with one byte changed cannot be valid beside the valid ones. -/
theorem singleByteChangeIsCaught : Obligations.SingleByteChangeIsCaught := by
  unfold Obligations.SingleByteChangeIsCaught
  intro s t i b h hl hi hb hrun hvalid
  have hroom : i < s.config.bufBytes := lt_of_lt_of_le hi h.twelve_le_bufBytes
  have hwrite : deliver (Line.wb i b).event s = .next ((s.setBufByte i b).respond .done) :=
    perform_bufWrite_inside h.err_eq_none hroom b
  have hready : ((s.setBufByte i b).respond .done).SerdesReady := h
  have hwire : ((s.setBufByte i b).respond .done).wireBytes = s.wireBytes.set i b := s.wireBytes_setBufByte hi b
  rw [runListing_decode_validate h hl, runListing_nil] at hrun
  cases hrun
  have hmessage : (decodeMessage s.wireBytes).checksumOf = (decodeMessage s.wireBytes).checksum :=
    of_decide_eq_true hvalid
  have hb' : b ≠ s.wireBytes[i] := by rwa [State.getElem_wireBytes]
  refine ⟨((s.setBufByte i b).respond .done).checked (decodeMessage (s.wireBytes.set i b)), ?_,
    decide_eq_false (checksumOf_ne_of_set hi hb' hmessage)⟩
  rw [runListing_cons_of_next hwrite, runListing_decode_validate hready hl, hwire, runListing_nil]

end Sys2Proof.Machine
end
